-- ==== Sys2Proof/Word.lean ====
section
/-! DEFINITION. The word types: a register is 32 bits wide (REG_W, spec/00_scope.md R8), a memory byte 8 bits (20_memory.md R60). -/

namespace Sys2Proof

/-- The contents of one host-visible register, and one command word (R8, R21, R90). -/
abbrev Word := BitVec 32

/-- One byte of data memory (R60). -/
abbrev Byte := BitVec 8

end Sys2Proof
end

