-- ==== Sys2Proof/Machine/Arith.lean ====
section
/-! DEFINITION. The width-conversion primitives of spec/00_scope.md R12 on mathematical integers, and the counted loop of R16. -/

namespace Sys2Proof.Machine

/-- umod_N(v): the u with 0 ≤ u < 2^N and u ≡ v mod 2^N (R12). -/
def umod (n : Nat) (v : Int) : Nat := (v % (2 ^ n : Nat)).toNat

/-- wrap_N(v), N ≥ 1: the s with −2^(N−1) ≤ s < 2^(N−1) and s ≡ v mod 2^N (R12). -/
def wrap (n : Nat) (v : Int) : Int :=
  let u := v % (2 ^ n : Nat)
  if u < (2 ^ (n - 1) : Nat) then u else u - (2 ^ n : Nat)

/-- zext_N(u): an N-bit pattern read as unsigned (R12). -/
def zext (u : Nat) : Int := (u : Int)

/-- sext_N(u): an N-bit pattern read as two's complement (R12). -/
def sext (n u : Nat) : Int := wrap n (u : Int)

/-- asr(v, k) = floor(v / 2^k), toward minus infinity (R12). -/
def asr (v : Int) (k : Nat) : Int := v / (2 ^ k : Nat)

/-- tz(v, k) = v / 2^k rounded toward zero (R12). -/
def tz (v : Int) (k : Nat) : Int := Int.tdiv v (2 ^ k : Nat)

/-- udiv(a, b) = floor(a / b) for b > 0 (R12). -/
def udiv (a b : Nat) : Nat := a / b

/-- `for k in 0 .. n−1`: runs the body n times with k ascending, iteration k before iteration k+1 (R16). -/
def forLoop {α : Type} (body : Nat → α → α) : Nat → α → α
  | 0, x => x
  | n + 1, x => body n (forLoop body n x)

end Sys2Proof.Machine
end

