-- ==== Sys2Proof/Config.lean ====
section
/-! DEFINITION. The implementation parameters of spec/00_scope.md R8 at the values "this hardware takes", and the two parameters of data
memory (20_memory.md R60, R82). REG_W and ADDR_W are the width of `Word`, NARG the number of fields of `Args`. -/

namespace Sys2Proof.Config

/-- RAW_W: a raw sample is unsigned and this wide (R8). -/
@[simp] abbrev rawW : Nat := 16

/-- COEF_W: an oscillator coefficient is signed and this wide (R8). -/
@[simp] abbrev coefW : Nat := 16

/-- IQ_W: each of I and Q is signed and this wide (R8). -/
@[simp] abbrev iqW : Nat := 16

/-- AUDIO_W: a detector output is signed and this wide (R8). -/
@[simp] abbrev audioW : Nat := 16

/-- ACC_W: the DDC and AFT multiply-accumulate sums wrap at this width (R8). -/
@[simp] abbrev accW : Nat := 32

/-- PCOEF_W: each AMD polynomial coefficient is signed and this wide (R8). -/
@[simp] abbrev pcoefW : Nat := 32

/-- STATE_W: the AMD filter state is signed and this wide (R8). -/
@[simp] abbrev stateW : Nat := 32

/-- FRAC_W: fractional bits of the AMD filter state and of ALPHA (R8). -/
@[simp] abbrev fracW : Nat := 16

/-- 2^FRAC_W: the value 1 in the format of ALPHA and of the AMD filter state (R34, R150). -/
@[simp] abbrev fracOne : Nat := 65536

/-- SHIFT_MAX: the largest DDC and AFT scale shift (R8). -/
@[simp] abbrev shiftMax : Nat := 31

/-- PSH_MAX: the largest AMD coefficient shift QA, QB (R8). -/
@[simp] abbrev pshMax : Nat := 63

/-- 2^ADDR_W: one past the last byte address of data memory (R8, R60). -/
@[simp] abbrev memTop : Nat := 4294967296

/-- The highest offset of register space at which a word access starts (R181, R182). -/
@[simp] abbrev regLast : Nat := 0x11C

/-- The spec's open parameter MemValid: which addresses hold a byte. DESIGN CHOICE (log entry 5): the spec's default, every address
of the 32-bit space (R60). -/
def memValid (a : Nat) : Bool := decide (a < memTop)

/-- What a byte of memory reads as that no entry of the memory lists. DESIGN CHOICE (log entry 4): R82 leaves the contents at
power-up open, and a statement over every memory holds whatever they are. Unsafe for a statement about `State.reset` alone. -/
def unlistedByte : Byte := 0

end Sys2Proof.Config
end

