-- ==== Sys2Proof/Syntax.lean ====
section
/-! DEFINITION. The eight commands (spec/30_encoding.md R93) and the host's actions (44_host.md R180, 30_encoding.md R100). -/

namespace Sys2Proof

/-- The commands of R93, one constructor per row of the opcode table. A command word carries no operand (R90): operands are read from
the argument registers when the command runs (R96). -/
inductive Instr where
  | ddcInit
  | ddcProc
  | aftInit
  | aftMix
  | amdInit
  | amdDet
  | ssbInit
  | ssbDet
  deriving DecidableEq, Repr

/-- How much one host access moves. The block's registers know the word only (R186); data memory is reached in elements of 2 or 4
bytes (R65, R100) or, by whatever means the platform gives (R184), in single bytes. -/
inductive AccessWidth where
  | byte
  | half
  | word
  deriving DecidableEq, Repr

/-- The number of bytes an access moves. -/
@[simp] def AccessWidth.bytes : AccessWidth → Nat
  | .byte => 1
  | .half => 2
  | .word => 4

/-- What the host can do, one action at a time (R180). A register is named by its byte offset in register space (R40). -/
inductive HostAction where
  /-- RegWrite(offset, value) (R181); at offset 0 it issues a command (R183). -/
  | regWrite (width : AccessWidth) (offset value : Word)
  /-- RegRead(offset) (R182). -/
  | regRead (width : AccessWidth) (offset : Word)
  /-- The host writes one element of data memory directly (R184; MW16 and MW32 of R100). -/
  | memWrite (width : AccessWidth) (addr value : Word)
  /-- The host reads one element of data memory directly (R184; MR16 and MR32 of R100). -/
  | memRead (width : AccessWidth) (addr : Word)
  /-- The reset line (R185, R231). -/
  | reset
  deriving DecidableEq, Repr

end Sys2Proof
end

