-- ==== Sys2Proof/WellFormed.lean ====
section
/-! DEFINITION. Which terms of the syntax the spec gives a meaning. A command has no fields, so every command is well formed; a host
action is well formed when it is one the spec defines (spec/44_host.md R186, 20_memory.md R60). -/

namespace Sys2Proof

/-- Every command is well formed: its word has no operand field (R90). -/
def Instr.wellFormed : Instr → Bool
  | .ddcInit => true
  | .ddcProc => true
  | .aftInit => true
  | .aftMix => true
  | .amdInit => true
  | .amdDet => true
  | .ssbInit => true
  | .ssbDet => true

/-- A register access the spec defines: one 32-bit word, at an offset that is a multiple of 4 in 0x000 .. 0x11C (R181, R182, R186). -/
def regAccessOk (width : AccessWidth) (offset : Word) : Bool :=
  width == .word && decide (offset.toNat % 4 = 0) && decide (offset.toNat ≤ Config.regLast)

/-- A host memory access all of whose bytes exist: it ends at or below 2^32 (R60). -/
def memAccessOk (width : AccessWidth) (addr : Word) : Bool :=
  decide (addr.toNat + width.bytes ≤ Config.memTop)

/-- The host actions to which the spec gives an effect. -/
def HostAction.wellFormed : HostAction → Bool
  | .regWrite w o _ => regAccessOk w o
  | .regRead w o => regAccessOk w o
  | .memWrite w a _ => memAccessOk w a
  | .memRead w a => memAccessOk w a
  | .reset => true

end Sys2Proof
end

