-- ==== Sys2Proof/Decode.lean ====
section
/-! DEFINITION. Decoding a command word and encoding a command (spec/30_encoding.md R90 to R95, R103). -/

namespace Sys2Proof

/-- Why a word is no command (R94, R103): the field that is wrong, tested in the order of R103. -/
inductive IllegalWord where
  /-- Bits 31:8 are not 0 (R90). -/
  | zeroField
  /-- UNIT is 0 or 5 .. 15 (R91). -/
  | unitField
  /-- FN is 2 .. 15 (R92). -/
  | fnField
  deriving DecidableEq, Repr

/-- Bits 31:8 of a command word (R90). -/
def fieldZero (w : Word) : BitVec 24 := w.extractLsb' 8 24

/-- UNIT, bits 7:4 (R90). -/
def fieldUnit (w : Word) : BitVec 4 := w.extractLsb' 4 4

/-- FN, bits 3:0 (R90). -/
def fieldFn (w : Word) : BitVec 4 := w.extractLsb' 0 4

/-- Picks a unit's INIT (FN = 0) or its processing command (FN = 1) (R92). -/
def decodeFn (fn : BitVec 4) (init proc : Instr) : Except IllegalWord Instr :=
  if fn = 0 then .ok init else if fn = 1 then .ok proc else .error .fnField

/-- The command a word stands for, or the field that makes it illegal. It depends on the word alone (R103). -/
def decode (w : Word) : Except IllegalWord Instr :=
  if fieldZero w ≠ 0 then .error .zeroField
  else if fieldUnit w = 1 then decodeFn (fieldFn w) .ddcInit .ddcProc
  else if fieldUnit w = 2 then decodeFn (fieldFn w) .aftInit .aftMix
  else if fieldUnit w = 3 then decodeFn (fieldFn w) .amdInit .amdDet
  else if fieldUnit w = 4 then decodeFn (fieldFn w) .ssbInit .ssbDet
  else .error .unitField

/-- The word of a command: the column "word" of R93's table. -/
def encode : Instr → Word
  | .ddcInit => 0x00000010
  | .ddcProc => 0x00000011
  | .aftInit => 0x00000020
  | .aftMix => 0x00000021
  | .amdInit => 0x00000030
  | .amdDet => 0x00000031
  | .ssbInit => 0x00000040
  | .ssbDet => 0x00000041

/-- The command in an instruction of the opcode table whose `nbits` bits are `w`. A command is one 32-bit word (R90), so a bit above
bit 31 makes it no command. -/
def decodeTableWord (nbits w : Nat) : Option Instr :=
  let v := w % 2 ^ nbits
  if v < 2 ^ 32 then
    match decode (BitVec.ofNat 32 v) with
    | .ok i => some i
    | .error _ => none
  else none

/-- The encoding of a host script: its register writes as (offset, value) pairs in order; other actions have none (R102). -/
def encodeScript : List HostAction → List (Word × Word)
  | [] => []
  | .regWrite _ o v :: rest => (o, v) :: encodeScript rest
  | .regRead _ _ :: rest => encodeScript rest
  | .memWrite _ _ _ :: rest => encodeScript rest
  | .memRead _ _ :: rest => encodeScript rest
  | .reset :: rest => encodeScript rest

end Sys2Proof
end

