-- ==== Sys2Proof/Machine/State.lean ====
section
/-! DEFINITION. The state of the block, of data memory and of the host's side, the reasons a step can stop, and the state after reset
(spec/10_state.md, 20_memory.md R60, 70_reset_and_hazards.md R230). -/

namespace Sys2Proof.Machine

/-- Why a step stops the whole run. The block's own faults are not here: they are next states (R204). -/
inductive Fault where
  /-- A host memory access reaches past the last byte of data memory, where no byte exists (R60, D3). Raised by `hostMemWrite` and
  `hostMemRead`, never by a command (R67). Safe: the model stops where the spec gives no meaning. -/
  | outsideDataMemory
  deriving DecidableEq, Repr

/-- Why a step has no meaning. -/
inductive Refusal where
  /-- An instruction with no meaning yet. Raised by no arm of `exec`. Safe. -/
  | notModelled (mnemonic : String)
  /-- A register access that is not one aligned 32-bit word in 0x000 .. 0x11F: "not defined by this spec; a model refuses them" (R186).
  Raised by `hostRegWrite` and `hostRegRead`. Safe. -/
  | registerAccessNotDefined
  deriving DecidableEq, Repr

/-- The argument registers A0 .. A7 (R21). -/
structure Args where
  a0 : Word
  a1 : Word
  a2 : Word
  a3 : Word
  a4 : Word
  a5 : Word
  a6 : Word
  a7 : Word
  deriving DecidableEq, Repr

/-- The five bits of STATUS that hold anything; bits 30:4 read as 0 (R24). -/
structure Status where
  ddcRdy : Bool
  aftRdy : Bool
  amdRdy : Bool
  ssbRdy : Bool
  fault : Bool
  deriving DecidableEq, Repr

/-- What FCAUSE can hold (R25, R201). -/
inductive Cause where
  | none
  | illegalCmd
  | notReady
  | cfgZeroPeriod
  | cfgZeroRatio
  | cfgZeroFreq
  | cfgShiftExceeds
  | cfgParam
  | cfgAddr
  | range
  deriving DecidableEq, Repr

/-- The DDC unit's registers (R28). -/
structure Ddc where
  ti : Word
  tq : Word
  period : Word
  ratio : Word
  shift : Word
  dst : Word
  cap : Word
  lutpos : Word
  wpos : Word
  deriving DecidableEq, Repr

/-- The AFT unit's registers (R31). -/
structure Aft where
  tc : Word
  ts : Word
  period : Word
  shift : Word
  mode : Word
  lutpos : Word
  deriving DecidableEq, Repr

/-- The AMD unit's registers (R33); `state` is the filter state, read as signed Q15.16 (R34). -/
structure Amd where
  pa : Word
  pb : Word
  pc : Word
  qa : Word
  qb : Word
  alpha : Word
  state : Word
  deriving DecidableEq, Repr

/-- The SSB unit's registers (R35). -/
structure Ssb where
  ringBegin : Word
  ringEnd : Word
  rate : Word
  freq : Word
  period : Word
  shift : Word
  len : Word
  deriving DecidableEq, Repr

/-- Data memory (R60): the bytes that differ from `Config.unlistedByte`, by rising address. -/
structure Memory where
  cells : List Host.Cell
  deriving DecidableEq, Repr

/-- The whole state (R20) and, last, the host's side of the interface, which is the model's own (log entries 1 and 2). -/
@[ext]
structure State where
  /-- A0 .. A7 (R21). -/
  args : Args
  /-- STATUS (R24). -/
  status : Status
  /-- FCAUSE (R25). -/
  fcause : Cause
  /-- FCMD (R26). -/
  fcmd : Word
  /-- The DDC registers (R28). -/
  ddc : Ddc
  /-- The AFT registers (R31). -/
  aft : Aft
  /-- The AMD registers (R33). -/
  amd : Amd
  /-- The SSB registers (R35). -/
  ssb : Ssb
  /-- Data memory (R60). -/
  mem : Memory
  /-- The host actions still to come, oldest first. DESIGN CHOICE (log entry 1). -/
  script : List HostAction
  /-- What the host's reads have returned, oldest first. DESIGN CHOICE (log entry 2). -/
  replies : List Word
  deriving DecidableEq, Repr

/-- The state with other argument registers. -/
def State.setArgs (s : State) (v : Args) : State := { s with args := v }

/-- The state with another STATUS. -/
def State.setStatus (s : State) (v : Status) : State := { s with status := v }

/-- The state with another FCAUSE. -/
def State.setFcause (s : State) (v : Cause) : State := { s with fcause := v }

/-- The state with another FCMD. -/
def State.setFcmd (s : State) (v : Word) : State := { s with fcmd := v }

/-- The state with other DDC registers. -/
def State.setDdc (s : State) (v : Ddc) : State := { s with ddc := v }

/-- The state with other AFT registers. -/
def State.setAft (s : State) (v : Aft) : State := { s with aft := v }

/-- The state with other AMD registers. -/
def State.setAmd (s : State) (v : Amd) : State := { s with amd := v }

/-- The state with other SSB registers. -/
def State.setSsb (s : State) (v : Ssb) : State := { s with ssb := v }

/-- The state with another data memory. -/
def State.setMem (s : State) (v : Memory) : State := { s with mem := v }

/-- The state with other actions to come. -/
def State.setScript (s : State) (v : List HostAction) : State := { s with script := v }

/-- The state with other replies. -/
def State.setReplies (s : State) (v : List Word) : State := { s with replies := v }

/-- Every argument register at its reset value (R21). -/
def Args.reset : Args := ⟨0, 0, 0, 0, 0, 0, 0, 0⟩

/-- No unit ready, no fault (R24). -/
def Status.reset : Status := ⟨false, false, false, false, false⟩

/-- The DDC registers at reset (R28, R230). -/
def Ddc.reset : Ddc := ⟨0, 0, 0, 0, 0, 0, 0, 0, 0⟩

/-- The AFT registers at reset (R31, R230). -/
def Aft.reset : Aft := ⟨0, 0, 0, 0, 0, 0⟩

/-- The AMD registers at reset (R33, R230). -/
def Amd.reset : Amd := ⟨0, 0, 0, 0, 0, 0, 0⟩

/-- The SSB registers at reset (R35, R230). -/
def Ssb.reset : Ssb := ⟨0, 0, 0, 0, 0, 0, 0⟩

/-- The machine right after reset: every register 0 (R230, R41), memory with nothing listed (log entry 4), no host action to come
(log entry 1). -/
def State.reset : State where
  args := Args.reset
  status := Status.reset
  fcause := .none
  fcmd := 0
  ddc := Ddc.reset
  aft := Aft.reset
  amd := Amd.reset
  ssb := Ssb.reset
  mem := ⟨[]⟩
  script := []
  replies := []

end Sys2Proof.Machine
end

