-- ==== Sys2Proof/Machine/Flags.lean ====
section
/-! DEFINITION. STATUS and FCAUSE as the host reads them, and the only ways a bit of STATUS is set (spec/10_state.md R24, R25). -/

namespace Sys2Proof.Machine

/-- STATUS as a 32-bit word: FAULT in bit 31, the ready bits in bits 3:0, bits 30:4 zero (R24). -/
def Status.word (st : Status) : Word :=
  BitVec.ofBool st.fault ++ 0#27 ++ BitVec.ofBool st.ssbRdy ++ BitVec.ofBool st.amdRdy ++ BitVec.ofBool st.aftRdy
    ++ BitVec.ofBool st.ddcRdy

/-- The cause code of R201, as FCAUSE holds it (R25). -/
def Cause.code : Cause → Word
  | .none => 0
  | .illegalCmd => 1
  | .notReady => 2
  | .cfgZeroPeriod => 3
  | .cfgZeroRatio => 4
  | .cfgZeroFreq => 5
  | .cfgShiftExceeds => 6
  | .cfgParam => 7
  | .cfgAddr => 8
  | .range => 9

/-- STATUS.DDC_RDY <- 1 (R111). -/
def Status.setDdcRdy (st : Status) : Status := { st with ddcRdy := true }

/-- STATUS.AFT_RDY <- 1 (R131). -/
def Status.setAftRdy (st : Status) : Status := { st with aftRdy := true }

/-- STATUS.AMD_RDY <- 1 (R146). -/
def Status.setAmdRdy (st : Status) : Status := { st with amdRdy := true }

/-- STATUS.SSB_RDY <- 1 (R166). -/
def Status.setSsbRdy (st : Status) : Status := { st with ssbRdy := true }

/-- STATUS.FAULT <- 1 (R204). -/
def Status.setFault (st : Status) : Status := { st with fault := true }

end Sys2Proof.Machine
end

