-- ==== Sys2Proof/Machine/Ops.lean ====
section
/-! DEFINITION. The shared operations: data memory (spec/20_memory.md R60 to R64), fault entry and reset (60_exceptions.md R204, R206,
70_reset_and_hazards.md R231), and how every command runs (60_exceptions.md R203, R207). -/

namespace Sys2Proof.Machine

/-! ### Data memory -/

/-- The byte the list gives address `a`; the search ends where a higher address stands. -/
def readCell : List Host.Cell → Nat → Byte
  | [], _ => Config.unlistedByte
  | (x, v) :: rest, a => if a < x then Config.unlistedByte else if a = x then v else readCell rest a

/-- The list with byte `b` at address `a`, in canonical form: rising addresses, nothing listed that an unlisted address reads as. -/
def writeCell : List Host.Cell → Nat → Byte → List Host.Cell
  | [], a, b => if b = Config.unlistedByte then [] else [(a, b)]
  | (x, v) :: rest, a, b =>
    if a < x then (if b = Config.unlistedByte then (x, v) :: rest else (a, b) :: (x, v) :: rest)
    else if a = x then (if b = Config.unlistedByte then rest else (a, b) :: rest)
    else (x, v) :: writeCell rest a b

/-- Every address of the list is above `lo`, exists, and holds a byte worth listing, and the addresses rise. -/
def cellsAbove : Option Nat → List Host.Cell → Bool
  | _, [] => true
  | lo, (x, v) :: rest =>
    (match lo with | none => true | some l => decide (l < x)) && Config.memValid x && decide (v ≠ Config.unlistedByte)
      && cellsAbove (some x) rest

/-- The canonical form of data memory. -/
def Memory.wf (m : Memory) : Bool := cellsAbove none m.cells

/-- M[a], the byte at address `a` (R62). -/
def Memory.readByte (m : Memory) (a : Nat) : Byte := readCell m.cells a

/-- M[a] ← b. An address that no byte stands behind keeps nothing; the checks of R67 keep every command below 2^32 (log entry 12). -/
def Memory.writeByte (m : Memory) (a : Nat) (b : Byte) : Memory :=
  if Config.memValid a then ⟨writeCell m.cells a b⟩ else m

/-- MemRead(addr, n): the n bytes from `addr` as one little-endian unsigned integer (R62, R64). -/
def memRead (m : Memory) (addr : Nat) : Nat → Nat
  | 0 => 0
  | n + 1 => memRead m addr n + (m.readByte (addr + n)).toNat * 2 ^ (8 * n)

/-- MemWrite(addr, n, v): stores v in the n bytes from `addr`, little-endian (R63, R64). -/
def memWrite (m : Memory) (addr : Nat) : Nat → Nat → Memory
  | 0, _ => m
  | n + 1, v => (memWrite m addr n v).writeByte (addr + n) (BitVec.ofNat 8 (v / 2 ^ (8 * n) % 256))

/-! ### Taking a fault, and reset -/

/-- Fault entry: `raise Fault(code)` during the command started by RegWrite(CMD, w) (R204). Nothing else changes (R203). -/
def raiseFault (code : Cause) (w : Word) (s : State) : State :=
  ((s.setStatus s.status.setFault).setFcause code).setFcmd w

/-- The Reset action: every register to its reset value, memory unchanged (R231). It is the only way out of a fault (R206). The host's
side, which is no state of the block, stays (log entry 1). -/
def resetBlock (s : State) : State :=
  ((State.reset.setMem s.mem).setScript s.script).setReplies s.replies

/-! ### How every command runs -/

/-- The cause of the first check that fails, in the order given (R207). -/
def firstFailing : List (Bool × Cause) → Option Cause
  | [] => none
  | (fails, code) :: rest => if fails then some code else firstFailing rest

/-- Runs a command: every check before any write; the first that fails raises its fault and nothing else happens, otherwise the command
runs to its end (R203). FCMD receives the command's one word (R202, log entry 11). -/
def runCommand (i : Instr) (checks : List (Bool × Cause)) (effect : State → State) (s : State) : Host.Outcome State Fault Refusal :=
  match firstFailing checks with
  | some code => .next (raiseFault code (encode i) s)
  | none => .next (effect s)

end Sys2Proof.Machine
end

