-- ==== Sys2Proof/Machine/Operands.lean ====
section
/-! DEFINITION. Operand forms: the typed memory accesses of spec/00_scope.md R14 with the layouts of 20_memory.md R65, and the range and
destination operands that every processing command takes (30_encoding.md R97, R98). -/

namespace Sys2Proof.Machine

/-- RawAt(a): an unsigned raw sample (R14). -/
def rawAt (m : Memory) (a : Nat) : Int := zext (memRead m a 2)

/-- CoefAt(a): a signed oscillator coefficient (R14). -/
def coefAt (m : Memory) (a : Nat) : Int := sext Config.coefW (memRead m a 2)

/-- IAt(a): I of the IQSample at `a` (R14). -/
def iAt (m : Memory) (a : Nat) : Int := sext Config.iqW (memRead m a 2)

/-- QAt(a): Q of the IQSample at `a` (R14). -/
def qAt (m : Memory) (a : Nat) : Int := sext Config.iqW (memRead m (a + 2) 2)

/-- WriteIQ(a, i, q): stores an IQSample, I in the low half (R14). -/
def writeIQ (m : Memory) (a : Nat) (i q : Int) : Memory :=
  memWrite m a 4 (umod 16 i + 2 ^ 16 * umod 16 q)

/-- WriteAudio(a, v): stores a detector output (R14). -/
def writeAudio (m : Memory) (a : Nat) (v : Int) : Memory :=
  memWrite m a 2 (umod 16 v)

/-- AudioAt(a): the detector output at `a`, signed (R65). -/
def audioAt (m : Memory) (a : Nat) : Int := sext Config.audioW (memRead m a 2)

/-- `begin` of a processing command: the address of the first input element (R97, R98). -/
def opBegin (s : State) : Nat := s.args.a0.toNat

/-- `end` of a processing command: the address one past the last input element (R97, R98). -/
def opEnd (s : State) : Nat := s.args.a1.toNat

/-- `dst` of a processing command: the address of the first output element (R97). -/
def opDst (s : State) : Nat := s.args.a2.toNat

/-- How many elements of `size` bytes the range [begin, end) holds (R98). -/
def elemCount (s : State) (size : Nat) : Nat := (opEnd s - opBegin s) / size

/-- The range check of every processing command: end below begin, or a bound that is no multiple of the element size (R66, R98). -/
def rangeBad (s : State) (size : Nat) : Bool :=
  decide (opEnd s < opBegin s) || decide (opBegin s % size ≠ 0) || decide (opEnd s % size ≠ 0)

/-- The destination check of a processing command with `n` outputs of `size` bytes: nothing is checked when there is no output
(R66, R67, D38). -/
def dstBad (s : State) (n size : Nat) : Bool :=
  decide (n > 0) && (decide (opDst s % size ≠ 0) || decide (opDst s + size * n > Config.memTop))

/-- The check of a table or ring of `count` elements of `size` bytes at `base`: misaligned, or running past 2^32 (R66, R67). -/
def bufferBad (base count size : Nat) : Bool :=
  decide (base % size ≠ 0) || decide (base + size * count > Config.memTop)

/-- Scale-down: arithmetic right shift by the scale shift, then the low 16 bits (R118, R137). -/
def scaleDown (v : Int) (shift : Nat) : Int := wrap Config.iqW (asr v shift)

end Sys2Proof.Machine
end

