-- ==== Sys2Proof/Machine/Aft.lean ====
section
/-! DEFINITION. The FrequencyTranslator: AFT.INIT (spec/41_aft.md R131) and AFT.MIX (R133). -/

namespace Sys2Proof.Machine

/-- The checks of AFT.INIT, in their order; the sine table is checked in mode 1 only (R131). -/
def aftInitChecks (s : State) : List (Bool × Cause) :=
  [ (decide (s.args.a2.toNat = 0), .cfgZeroPeriod),
    (decide (s.args.a3.toNat > Config.shiftMax) || decide (s.args.a4.toNat > 1), .cfgParam),
    (bufferBad s.args.a0.toNat s.args.a2.toNat 2, .cfgAddr),
    (decide (s.args.a4.toNat = 1) && bufferBad s.args.a1.toNat s.args.a2.toNat 2, .cfgAddr) ]

/-- The effect of AFT.INIT when its checks pass: latches the operands, cursor 0, unit ready (R131). -/
def aftInitEffect (s : State) : State :=
  (s.setAft
    { tc := s.args.a0
      ts := s.args.a1
      period := s.args.a2
      shift := s.args.a3
      mode := s.args.a4
      lutpos := 0 }).setStatus s.status.setAftRdy

/-- AFT.INIT (R131). -/
def execAftInit (s : State) : Host.Outcome State Fault Refusal :=
  runCommand .aftInit (aftInitChecks s) aftInitEffect s

/-- (pI, pQ) of the sample (i, q) at the cursor: the sample times one real coefficient in mode 0 (R134), the complex product wrapped to
32 bits in mode 1 (R135). -/
def aftProduct (m : Memory) (f : Aft) (i q : Int) : Int × Int :=
  let c := coefAt m (f.tc.toNat + 2 * f.lutpos.toNat)
  if f.mode.toNat = 0 then (i * c, q * c)
  else
    let sn := coefAt m (f.ts.toNat + 2 * f.lutpos.toNat)
    (wrap Config.accW (i * c - q * sn), wrap Config.accW (i * sn + q * c))

/-- AFT.LUTPOS <- (AFT.LUTPOS + 1) mod P (R133). -/
def aftAdvance (f : Aft) : Aft :=
  { f with lutpos := BitVec.ofNat 32 ((f.lutpos.toNat + 1) % f.period.toNat) }

/-- Output `k` of AFT.MIX: sample `k` read, multiplied, scaled down and written, the cursor moved by one (R133). -/
def aftOutput (first dst k : Nat) (fm : Aft × Memory) : Aft × Memory :=
  let f := fm.1
  let m := fm.2
  let p := aftProduct m f (iAt m (first + 4 * k)) (qAt m (first + 4 * k))
  (aftAdvance f, writeIQ m (dst + 4 * k) (scaleDown p.1 f.shift.toNat) (scaleDown p.2 f.shift.toNat))

/-- The checks of AFT.MIX, in their order (R133). -/
def aftMixChecks (s : State) : List (Bool × Cause) :=
  [ (!s.status.aftRdy, .notReady),
    (rangeBad s 4, .range),
    (dstBad s (elemCount s 4) 4, .range) ]

/-- The unit and the memory after the outputs of AFT.MIX (R133). -/
def aftRun (s : State) : Aft × Memory :=
  forLoop (aftOutput (opBegin s) (opDst s)) (elemCount s 4) (s.aft, s.mem)

/-- The effect of AFT.MIX when its checks pass (R133). -/
def aftMixEffect (s : State) : State := (s.setAft (aftRun s).1).setMem (aftRun s).2

/-- AFT.MIX (R133). -/
def execAftMix (s : State) : Host.Outcome State Fault Refusal :=
  runCommand .aftMix (aftMixChecks s) aftMixEffect s

end Sys2Proof.Machine
end

