-- ==== Sys2Proof/Machine/Amd.lean ====
section
/-! DEFINITION. The AmplitudeDetector: AMD.INIT (spec/42_amd.md R146) and AMD.DET (R148). -/

namespace Sys2Proof.Machine

/-- The check of AMD.INIT (R146). -/
def amdInitChecks (s : State) : List (Bool × Cause) :=
  [ (decide (s.args.a3.toNat > Config.pshMax) || decide (s.args.a4.toNat > Config.pshMax)
      || decide (s.args.a5.toNat > Config.fracOne), .cfgParam) ]

/-- The effect of AMD.INIT when its check passes: latches the calibration, filter state 0, unit ready (R146). -/
def amdInitEffect (s : State) : State :=
  (s.setAmd
    { pa := s.args.a0
      pb := s.args.a1
      pc := s.args.a2
      qa := s.args.a3
      qb := s.args.a4
      alpha := s.args.a5
      state := 0 }).setStatus s.status.setAmdRdy

/-- AMD.INIT (R146). -/
def execAmdInit (s : State) : Host.Outcome State Fault Refusal :=
  runCommand .amdInit (amdInitChecks s) amdInitEffect s

/-- S = I·I + Q·Q, exact (R149). -/
def amdSquare (i q : Int) : Int := i * i + q * q

/-- T2 + T1 + PC: the quadratic polynomial in S, each scaled term floored by itself, the sum exact (R151). -/
def amdPoly (u : Amd) (sq : Int) : Int :=
  asr (sext Config.pcoefW u.pa.toNat * sq * sq) u.qa.toNat + asr (sext Config.pcoefW u.pb.toNat * sq) u.qb.toNat
    + sext Config.pcoefW u.pc.toNat

/-- mag: the polynomial value, low 16 bits (R152). -/
def amdMag (u : Amd) (sq : Int) : Int := wrap Config.audioW (amdPoly u sq)

/-- Y': the filter state after one sample of magnitude `mag`, one floor at the end (R153). -/
def amdFilter (alpha : Nat) (y mag : Int) : Int :=
  asr (y * (Config.fracOne - alpha) + mag * Config.fracOne * alpha) Config.fracW

/-- Y = wrap_32(AMD.STATE), the filter state as a signed integer (R34). -/
def amdY (u : Amd) : Int := sext Config.stateW u.state.toNat

/-- Y' for the sample (i, q) (R148). -/
def amdNextY (u : Amd) (i q : Int) : Int := amdFilter u.alpha.toNat (amdY u) (amdMag u (amdSquare i q))

/-- Output `k` of AMD.DET: the filter updated with sample `k`, its new state's integer part written, toward zero (R148, R154). -/
def amdOutput (first dst k : Nat) (um : Amd × Memory) : Amd × Memory :=
  let u := um.1
  let m := um.2
  let y := amdNextY u (iAt m (first + 4 * k)) (qAt m (first + 4 * k))
  ({ u with state := BitVec.ofNat 32 (umod 32 y) }, writeAudio m (dst + 2 * k) (tz y Config.fracW))

/-- The checks of AMD.DET, in their order (R148). -/
def amdDetChecks (s : State) : List (Bool × Cause) :=
  [ (!s.status.amdRdy, .notReady),
    (rangeBad s 4, .range),
    (dstBad s (elemCount s 4) 2, .range) ]

/-- The unit and the memory after the outputs of AMD.DET (R148). -/
def amdRun (s : State) : Amd × Memory :=
  forLoop (amdOutput (opBegin s) (opDst s)) (elemCount s 4) (s.amd, s.mem)

/-- The effect of AMD.DET when its checks pass (R148). -/
def amdDetEffect (s : State) : State := (s.setAmd (amdRun s).1).setMem (amdRun s).2

/-- AMD.DET (R148). -/
def execAmdDet (s : State) : Host.Outcome State Fault Refusal :=
  runCommand .amdDet (amdDetChecks s) amdDetEffect s

end Sys2Proof.Machine
end

