-- ==== Sys2Proof/Machine/Ddc.lean ====
section
/-! DEFINITION. The DownConverter: DDC.INIT (spec/40_ddc.md R111) and DDC.PROC (R113). -/

namespace Sys2Proof.Machine

/-- The checks of DDC.INIT, in their order (R111). -/
def ddcInitChecks (s : State) : List (Bool × Cause) :=
  [ (decide (s.args.a2.toNat = 0), .cfgZeroPeriod),
    (decide (s.args.a3.toNat = 0), .cfgZeroRatio),
    (decide (s.args.a4.toNat > Config.shiftMax), .cfgParam),
    (bufferBad s.args.a0.toNat s.args.a2.toNat 2 || bufferBad s.args.a1.toNat s.args.a2.toNat 2, .cfgAddr),
    (decide (s.args.a6.toNat > 0) && bufferBad s.args.a5.toNat s.args.a6.toNat 4, .cfgAddr) ]

/-- The effect of DDC.INIT when its checks pass: latches the operands, cursor and write index 0, unit ready (R111). -/
def ddcInitEffect (s : State) : State :=
  (s.setDdc
    { ti := s.args.a0
      tq := s.args.a1
      period := s.args.a2
      ratio := s.args.a3
      shift := s.args.a4
      dst := if s.args.a6.toNat > 0 then s.args.a5 else 0
      cap := s.args.a6
      lutpos := 0
      wpos := 0 }).setStatus s.status.setDdcRdy

/-- DDC.INIT (R111). -/
def execDdcInit (s : State) : Host.Outcome State Fault Refusal :=
  runCommand .ddcInit (ddcInitChecks s) ddcInitEffect s

/-- idx of R113: the table index of raw sample `j` of a group, reduced for every raw sample (R116). -/
def ddcIndex (d : Ddc) (j : Nat) : Nat := (d.lutpos.toNat + j) % d.period.toNat

/-- One multiply-accumulate step of the pair (accI, accQ): raw sample `j` of the group whose first raw sample is at `group` (R113). -/
def ddcMac (m : Memory) (d : Ddc) (group j : Nat) (acc : Int × Int) : Int × Int :=
  let x := rawAt m (group + 2 * j)
  let idx := ddcIndex d j
  (wrap Config.accW (acc.1 + x * coefAt m (d.ti.toNat + 2 * idx)),
    wrap Config.accW (acc.2 + x * coefAt m (d.tq.toNat + 2 * idx)))

/-- accI and accQ after the R products of a group, both zero at its start (R113, R117). -/
def ddcGroup (m : Memory) (d : Ddc) (group : Nat) : Int × Int :=
  forLoop (ddcMac m d group) d.ratio.toNat (0, 0)

/-- DDC.LUTPOS <- (DDC.LUTPOS + R) mod P (R113). -/
def ddcAdvance (d : Ddc) : Ddc :=
  { d with lutpos := BitVec.ofNat 32 ((d.lutpos.toNat + d.ratio.toNat) % d.period.toNat) }

/-- DDC.WPOS <- (DDC.WPOS + 1) mod DDC.CAP in ring mode; unchanged in linear mode (R113). -/
def ddcNextSlot (d : Ddc) : Ddc :=
  if d.cap.toNat > 0 then { d with wpos := BitVec.ofNat 32 ((d.wpos.toNat + 1) % d.cap.toNat) } else d

/-- The address output `k` of the command goes to: the slot at WPOS in ring mode, element `k` of `dst` in linear mode (R113). -/
def ddcOutAddr (d : Ddc) (dst k : Nat) : Nat :=
  if d.cap.toNat > 0 then d.dst.toNat + 4 * d.wpos.toNat else dst + 4 * k

/-- Output `k` of DDC.PROC: one group accumulated, scaled down and written, the cursor and the write index moved (R113). -/
def ddcOutput (first dst k : Nat) (dm : Ddc × Memory) : Ddc × Memory :=
  let d := dm.1
  let m := dm.2
  let acc := ddcGroup m d (first + 2 * (k * d.ratio.toNat))
  (ddcNextSlot (ddcAdvance d),
    writeIQ m (ddcOutAddr d dst k) (scaleDown acc.1 d.shift.toNat) (scaleDown acc.2 d.shift.toNat))

/-- n = floor(L / R), the number of outputs of DDC.PROC (R113, R114). -/
def ddcCount (s : State) : Nat := udiv (elemCount s 2) s.ddc.ratio.toNat

/-- The checks of DDC.PROC, in their order; the destination is checked in linear mode only (R113). -/
def ddcProcChecks (s : State) : List (Bool × Cause) :=
  [ (!s.status.ddcRdy, .notReady),
    (rangeBad s 2, .range),
    (decide (s.ddc.cap.toNat = 0) && dstBad s (ddcCount s) 4, .range) ]

/-- The unit and the memory after the outputs of DDC.PROC (R113). -/
def ddcRun (s : State) : Ddc × Memory :=
  forLoop (ddcOutput (opBegin s) (opDst s)) (ddcCount s) (s.ddc, s.mem)

/-- The effect of DDC.PROC when its checks pass (R113). -/
def ddcProcEffect (s : State) : State := (s.setDdc (ddcRun s).1).setMem (ddcRun s).2

/-- DDC.PROC (R113). -/
def execDdcProc (s : State) : Host.Outcome State Fault Refusal :=
  runCommand .ddcProc (ddcProcChecks s) ddcProcEffect s

end Sys2Proof.Machine
end

