-- ==== Sys2Proof/Machine/Ssb.lean ====
section
/-! DEFINITION. The PhaseShiftDetector: SSB.INIT (spec/43_ssb.md R166) and SSB.DET (R168). -/

namespace Sys2Proof.Machine

/-- period = udiv(RATE, FREQ): samples per carrier period, truncated (R166, R167). -/
def ssbPeriod (s : State) : Nat := udiv s.args.a2.toNat s.args.a3.toNat

/-- shift = udiv(period, 4): the look-back distance (R166, R167). -/
def ssbShift (s : State) : Nat := udiv (ssbPeriod s) 4

/-- N = (END − BEGIN) / 4: the ring capacity (R166). -/
def ssbLen (s : State) : Nat := (s.args.a1.toNat - s.args.a0.toNat) / 4

/-- The checks of SSB.INIT, in their order (R166). -/
def ssbInitChecks (s : State) : List (Bool × Cause) :=
  [ (decide (s.args.a3.toNat = 0), .cfgZeroFreq),
    (decide (s.args.a0.toNat % 4 ≠ 0) || decide (s.args.a1.toNat % 4 ≠ 0)
      || decide (s.args.a1.toNat ≤ s.args.a0.toNat), .cfgAddr),
    (decide (ssbShift s > ssbLen s), .cfgShiftExceeds) ]

/-- The effect of SSB.INIT when its checks pass: latches the ring and the frequencies, stores the delay, unit ready (R166). -/
def ssbInitEffect (s : State) : State :=
  (s.setSsb
    { ringBegin := s.args.a0
      ringEnd := s.args.a1
      rate := s.args.a2
      freq := s.args.a3
      period := BitVec.ofNat 32 (ssbPeriod s)
      shift := BitVec.ofNat 32 (ssbShift s)
      len := BitVec.ofNat 32 (ssbLen s) }).setStatus s.status.setSsbRdy

/-- SSB.INIT (R166). -/
def execSsbInit (s : State) : Host.Outcome State Fault Refusal :=
  runCommand .ssbInit (ssbInitChecks s) ssbInitEffect s

/-- sidx: the look-back slot of slot `idx`, `sh` slots behind it in a ring of `n`, one wraparound only (R168, R169). -/
def ssbLookBack (idx sh n : Nat) : Nat :=
  let sidx : Int := (idx : Int) - (sh : Int)
  (if sidx < 0 then sidx + (n : Int) else sidx).toNat

/-- idx: the slot of the IQSample at address `p` (R168). -/
def ssbSlot (u : Ssb) (p : Nat) : Nat := (p - u.ringBegin.toNat) / 4

/-- out for the IQSample at `p`: I(current) − Q(shifted), low 16 bits (R168, R170). -/
def ssbValue (u : Ssb) (m : Memory) (p : Nat) : Int :=
  wrap Config.audioW
    (iAt m p - qAt m (u.ringBegin.toNat + 4 * ssbLookBack (ssbSlot u p) u.shift.toNat u.len.toNat))

/-- Output `k` of SSB.DET (R168). -/
def ssbOutput (u : Ssb) (first dst k : Nat) (m : Memory) : Memory :=
  writeAudio m (dst + 2 * k) (ssbValue u m (first + 4 * k))

/-- The range of SSB.DET reaches outside the ring (R168, R171). -/
def ssbOutsideRing (s : State) : Bool :=
  decide (opBegin s < s.ssb.ringBegin.toNat) || decide (opEnd s > s.ssb.ringEnd.toNat)

/-- The checks of SSB.DET, in their order (R168). -/
def ssbDetChecks (s : State) : List (Bool × Cause) :=
  [ (!s.status.ssbRdy, .notReady),
    (rangeBad s 4 || ssbOutsideRing s, .range),
    (dstBad s (elemCount s 4) 2, .range) ]

/-- The memory after the outputs of SSB.DET (R168). -/
def ssbRun (s : State) : Memory :=
  forLoop (ssbOutput s.ssb (opBegin s) (opDst s)) (elemCount s 4) s.mem

/-- The effect of SSB.DET when its checks pass: no register changes (R168, R174). -/
def ssbDetEffect (s : State) : State := s.setMem (ssbRun s)

/-- SSB.DET (R168). -/
def execSsbDet (s : State) : Host.Outcome State Fault Refusal :=
  runCommand .ssbDet (ssbDetChecks s) ssbDetEffect s

end Sys2Proof.Machine
end

