-- ==== Sys2Proof/Machine/Dispatch.lean ====
section
/-! DEFINITION. The meaning of each command of spec/30_encoding.md R93. -/

namespace Sys2Proof.Machine

/-- Runs one command's rule to completion, reading A0 .. A7 as they are now (spec/44_host.md R183). -/
def exec (i : Instr) (s : State) : Host.Outcome State Fault Refusal :=
  match i with
  | .ddcInit => Sys2Proof.Machine.execDdcInit s
  | .ddcProc => Sys2Proof.Machine.execDdcProc s
  | .aftInit => Sys2Proof.Machine.execAftInit s
  | .aftMix => Sys2Proof.Machine.execAftMix s
  | .amdInit => Sys2Proof.Machine.execAmdInit s
  | .amdDet => Sys2Proof.Machine.execAmdDet s
  | .ssbInit => Sys2Proof.Machine.execSsbInit s
  | .ssbDet => Sys2Proof.Machine.execSsbDet s

end Sys2Proof.Machine
end

