-- ==== Sys2Proof/Machine/Registers.lean ====
section
/-! DEFINITION. Register space: the register map of spec/10_state.md R40, reading a register (44_host.md R182) and the registers a host
write reaches (R181, R187). -/

namespace Sys2Proof.Machine

/-- The host-visible registers, in the order of R40's map. -/
inductive Reg where
  | cmd
  | status
  | fcause
  | fcmd
  | a0
  | a1
  | a2
  | a3
  | a4
  | a5
  | a6
  | a7
  | ddcTi
  | ddcTq
  | ddcPeriod
  | ddcRatio
  | ddcShift
  | ddcDst
  | ddcCap
  | ddcLutpos
  | ddcWpos
  | aftTc
  | aftTs
  | aftPeriod
  | aftShift
  | aftMode
  | aftLutpos
  | amdPa
  | amdPb
  | amdPc
  | amdQa
  | amdQb
  | amdAlpha
  | amdState
  | ssbBegin
  | ssbEnd
  | ssbRate
  | ssbFreq
  | ssbPeriod
  | ssbShift
  | ssbLen
  deriving DecidableEq, Repr

/-- The byte offset of a register in register space (R40). -/
def Reg.offset : Reg → Nat
  | .cmd => 0x000
  | .status => 0x004
  | .fcause => 0x008
  | .fcmd => 0x00C
  | .a0 => 0x010
  | .a1 => 0x014
  | .a2 => 0x018
  | .a3 => 0x01C
  | .a4 => 0x020
  | .a5 => 0x024
  | .a6 => 0x028
  | .a7 => 0x02C
  | .ddcTi => 0x040
  | .ddcTq => 0x044
  | .ddcPeriod => 0x048
  | .ddcRatio => 0x04C
  | .ddcShift => 0x050
  | .ddcDst => 0x054
  | .ddcCap => 0x058
  | .ddcLutpos => 0x05C
  | .ddcWpos => 0x060
  | .aftTc => 0x080
  | .aftTs => 0x084
  | .aftPeriod => 0x088
  | .aftShift => 0x08C
  | .aftMode => 0x090
  | .aftLutpos => 0x094
  | .amdPa => 0x0C0
  | .amdPb => 0x0C4
  | .amdPc => 0x0C8
  | .amdQa => 0x0CC
  | .amdQb => 0x0D0
  | .amdAlpha => 0x0D4
  | .amdState => 0x0D8
  | .ssbBegin => 0x100
  | .ssbEnd => 0x104
  | .ssbRate => 0x108
  | .ssbFreq => 0x10C
  | .ssbPeriod => 0x110
  | .ssbShift => 0x114
  | .ssbLen => 0x118

/-- R40's rows for the command, status and fault registers. -/
def Reg.blockRows : List Reg :=
  [.cmd, .status, .fcause, .fcmd]

/-- R40's rows for the argument registers. -/
def Reg.argsRows : List Reg :=
  [.a0, .a1, .a2, .a3, .a4, .a5, .a6, .a7]

/-- R40's rows for the DDC registers. -/
def Reg.ddcRows : List Reg :=
  [.ddcTi, .ddcTq, .ddcPeriod, .ddcRatio, .ddcShift, .ddcDst, .ddcCap, .ddcLutpos, .ddcWpos]

/-- R40's rows for the AFT registers. -/
def Reg.aftRows : List Reg :=
  [.aftTc, .aftTs, .aftPeriod, .aftShift, .aftMode, .aftLutpos]

/-- R40's rows for the AMD registers. -/
def Reg.amdRows : List Reg :=
  [.amdPa, .amdPb, .amdPc, .amdQa, .amdQb, .amdAlpha, .amdState]

/-- R40's rows for the SSB registers. -/
def Reg.ssbRows : List Reg :=
  [.ssbBegin, .ssbEnd, .ssbRate, .ssbFreq, .ssbPeriod, .ssbShift, .ssbLen]

/-- R40's map. -/
def Reg.all : List Reg := Reg.blockRows ++ Reg.argsRows ++ Reg.ddcRows ++ Reg.aftRows ++ Reg.amdRows ++ Reg.ssbRows

/-- The register at a byte offset, none at an offset that R40 does not list (R187). -/
def Reg.ofOffset (offset : Nat) : Option Reg := Reg.all.find? (fun r => r.offset == offset)

/-- The value a host read of a register returns; CMD holds nothing and reads 0 (R182, R27). -/
def readReg (r : Reg) (s : State) : Word :=
  match r with
  | .cmd => 0
  | .status => s.status.word
  | .fcause => s.fcause.code
  | .fcmd => s.fcmd
  | .a0 => s.args.a0
  | .a1 => s.args.a1
  | .a2 => s.args.a2
  | .a3 => s.args.a3
  | .a4 => s.args.a4
  | .a5 => s.args.a5
  | .a6 => s.args.a6
  | .a7 => s.args.a7
  | .ddcTi => s.ddc.ti
  | .ddcTq => s.ddc.tq
  | .ddcPeriod => s.ddc.period
  | .ddcRatio => s.ddc.ratio
  | .ddcShift => s.ddc.shift
  | .ddcDst => s.ddc.dst
  | .ddcCap => s.ddc.cap
  | .ddcLutpos => s.ddc.lutpos
  | .ddcWpos => s.ddc.wpos
  | .aftTc => s.aft.tc
  | .aftTs => s.aft.ts
  | .aftPeriod => s.aft.period
  | .aftShift => s.aft.shift
  | .aftMode => s.aft.mode
  | .aftLutpos => s.aft.lutpos
  | .amdPa => s.amd.pa
  | .amdPb => s.amd.pb
  | .amdPc => s.amd.pc
  | .amdQa => s.amd.qa
  | .amdQb => s.amd.qb
  | .amdAlpha => s.amd.alpha
  | .amdState => s.amd.state
  | .ssbBegin => s.ssb.ringBegin
  | .ssbEnd => s.ssb.ringEnd
  | .ssbRate => s.ssb.rate
  | .ssbFreq => s.ssb.freq
  | .ssbPeriod => s.ssb.period
  | .ssbShift => s.ssb.shift
  | .ssbLen => s.ssb.len

/-- The value at an offset: the register's, or 0 where no register is listed (R182, R187). -/
def readOffset (offset : Nat) (s : State) : Word :=
  match Reg.ofOffset offset with
  | some r => readReg r s
  | none => 0

/-- The argument registers after a host write of `value` to register `r`: only A0 .. A7 take it, a write to any other register is
ignored (R181, R42). CMD is not among them: writing it issues a command (`hostRegWrite`). -/
def writeArg (r : Reg) (value : Word) (a : Args) : Args :=
  match r with
  | .cmd => a
  | .status => a
  | .fcause => a
  | .fcmd => a
  | .a0 => { a with a0 := value }
  | .a1 => { a with a1 := value }
  | .a2 => { a with a2 := value }
  | .a3 => { a with a3 := value }
  | .a4 => { a with a4 := value }
  | .a5 => { a with a5 := value }
  | .a6 => { a with a6 := value }
  | .a7 => { a with a7 := value }
  | .ddcTi => a
  | .ddcTq => a
  | .ddcPeriod => a
  | .ddcRatio => a
  | .ddcShift => a
  | .ddcDst => a
  | .ddcCap => a
  | .ddcLutpos => a
  | .ddcWpos => a
  | .aftTc => a
  | .aftTs => a
  | .aftPeriod => a
  | .aftShift => a
  | .aftMode => a
  | .aftLutpos => a
  | .amdPa => a
  | .amdPb => a
  | .amdPc => a
  | .amdQa => a
  | .amdQb => a
  | .amdAlpha => a
  | .amdState => a
  | .ssbBegin => a
  | .ssbEnd => a
  | .ssbRate => a
  | .ssbFreq => a
  | .ssbPeriod => a
  | .ssbShift => a
  | .ssbLen => a

end Sys2Proof.Machine
end

