-- ==== Sys2Proof/Machine/HostPort.lean ====
section
/-! DEFINITION. What each host action does (spec/44_host.md R180 to R187). -/

namespace Sys2Proof.Machine

/-- Command issue, RegWrite(CMD, w): ignored while a fault stands (R205), a fault if `w` is no command (R94), otherwise the command runs
(R183). -/
def issueCommand (w : Word) (s : State) : Host.Outcome State Fault Refusal :=
  if s.status.fault then .next s
  else
    match decode w with
    | .error _ => .next (raiseFault .illegalCmd w s)
    | .ok i => exec i s

/-- The register accesses that exist: one 32-bit word at a multiple of 4 in 0x000 .. 0x11C (R186). -/
def regAccess (width : AccessWidth) (offset : Nat) : Bool :=
  match width with
  | .word => decide (offset % 4 = 0) && decide (offset ≤ Config.regLast)
  | .half => false
  | .byte => false

/-- RegWrite(offset, value): A0 .. A7 take the value, CMD issues it, any other offset ignores it (R181). -/
def hostRegWrite (width : AccessWidth) (offset value : Word) (s : State) : Host.Outcome State Fault Refusal :=
  if regAccess width offset.toNat then
    match Reg.ofOffset offset.toNat with
    | some .cmd => issueCommand value s
    | some r => .next (s.setArgs (writeArg r value s.args))
    | none => .next s
  else .refused .registerAccessNotDefined

/-- The value a read returned goes to the host (R182); the block keeps no trace of it. -/
def reply (v : Word) (s : State) : State := s.setReplies (s.replies ++ [v])

/-- RegRead(offset): the register's value, 0 for CMD and unlisted offsets; the block does not change (R182). -/
def hostRegRead (width : AccessWidth) (offset : Word) (s : State) : Host.Outcome State Fault Refusal :=
  if regAccess width offset.toNat then .next (reply (readOffset offset.toNat s) s)
  else .refused .registerAccessNotDefined

/-- All bytes of a host memory access exist (R60, log entry 7). -/
def hostSpanOk (width : AccessWidth) (addr : Nat) : Bool := Config.memValid (addr + (width.bytes - 1))

/-- The host writes the low bytes of `value` to data memory, little-endian (R184, R64, log entry 6). -/
def hostMemWrite (width : AccessWidth) (addr value : Word) (s : State) : Host.Outcome State Fault Refusal :=
  if hostSpanOk width addr.toNat then .next (s.setMem (memWrite s.mem addr.toNat width.bytes value.toNat))
  else .fault .outsideDataMemory

/-- The host reads an element of data memory, little-endian (R184, R64). -/
def hostMemRead (width : AccessWidth) (addr : Word) (s : State) : Host.Outcome State Fault Refusal :=
  if hostSpanOk width addr.toNat then .next (reply (BitVec.ofNat 32 (memRead s.mem addr.toNat width.bytes)) s)
  else .fault .outsideDataMemory

/-- One host action, from start to end (R180). -/
def hostAct (a : HostAction) (s : State) : Host.Outcome State Fault Refusal :=
  match a with
  | .regWrite width offset value => hostRegWrite width offset value s
  | .regRead width offset => hostRegRead width offset s
  | .memWrite width addr value => hostMemWrite width addr value s
  | .memRead width addr => hostMemRead width addr s
  | .reset => .next (resetBlock s)

/-- The next host action is taken from the script and performed; with none to come the block is idle and holds its state (R217). -/
def hostStep (s : State) : Host.Outcome State Fault Refusal :=
  match s.script with
  | [] => .next s
  | a :: rest => hostAct a (s.setScript rest)

/-- The host action that issues the command word `w`. -/
def cmdWrite (w : Word) : HostAction := .regWrite .word 0 w

end Sys2Proof.Machine
end

