-- ==== Sys2Proof/Machine/Step.lean ====
section
/-! DEFINITION. One step: one host action, a CMD write carrying its whole command (spec/00_scope.md R18). -/

namespace Sys2Proof.Machine

/-- One step of the machine (R18). -/
def step (s : State) : Host.Outcome State Fault Refusal := hostStep s

/-- The state whose next host action writes the command word `w` (its low `nbits` bits) to CMD; a command is issued by that write and is
taken from nowhere else (R76, R183, log entry 1). Nothing else changes. -/
def State.withFetchWord (s : State) (nbits w : Nat) : State :=
  s.setScript (cmdWrite (BitVec.ofNat 32 (w % 2 ^ nbits)) :: s.script)

end Sys2Proof.Machine
end

