-- ==== Sys2Proof/Machine/Script.lean ====
section
/-! DEFINITION. The host-script notation: its lines (spec/30_encoding.md R100) and its pseudo-operations (R101), as lists of host
actions. -/

namespace Sys2Proof.Machine

/-- `WR reg, value`; a negative value v stands for umod_32(v) (R100). -/
def lineWR (r : Reg) (value : Int) : HostAction := .regWrite .word (BitVec.ofNat 32 r.offset) (BitVec.ofNat 32 (umod 32 value))

/-- `RD reg` (R100). -/
def lineRD (r : Reg) : HostAction := .regRead .word (BitVec.ofNat 32 r.offset)

/-- `CMD mnemonic`: `WR CMD` with the command's word (R100). -/
def lineCMD (i : Instr) : HostAction := cmdWrite (encode i)

/-- `MW16 addr, value`; a negative value v stands for umod_16(v) (R100). -/
def lineMW16 (addr : Word) (value : Int) : HostAction := .memWrite .half addr (BitVec.ofNat 32 (umod 16 value))

/-- `MW32 addr, value`; a negative value v stands for umod_32(v) (R100). -/
def lineMW32 (addr : Word) (value : Int) : HostAction := .memWrite .word addr (BitVec.ofNat 32 (umod 32 value))

/-- `MR16 addr` (R100). -/
def lineMR16 (addr : Word) : HostAction := .memRead .half addr

/-- `MR32 addr` (R100). -/
def lineMR32 (addr : Word) : HostAction := .memRead .word addr

/-- A0 .. A7 in order. -/
def argRegs : List Reg := [.a0, .a1, .a2, .a3, .a4, .a5, .a6, .a7]

/-- The argument writes of a pseudo-operation, operand k to Ak; an operand written `_` (none) is skipped (R101). -/
def operandWrites (operands : List (Option Int)) : List HostAction :=
  (argRegs.zip operands).filterMap (fun p => p.2.map (fun v => lineWR p.1 v))

/-- How many operands a command's pseudo-operation takes (R101). -/
def operandCount : Instr → Nat
  | .ddcInit => 7
  | .ddcProc => 3
  | .aftInit => 5
  | .aftMix => 3
  | .amdInit => 6
  | .amdDet => 3
  | .ssbInit => 4
  | .ssbDet => 3

/-- A pseudo-operation: the argument writes in the order of R97's columns, then the command; none with a wrong number of operands
(R101). -/
def pseudoOp (i : Instr) (operands : List (Option Int)) : Option (List HostAction) :=
  if operands.length = operandCount i then some (operandWrites operands ++ [lineCMD i]) else none

end Sys2Proof.Machine
end

