-- ==== Sys2Proof/Safety.lean ====
section
/-! DEFINITION. The terms the claims use: legal unit registers (spec/10_state.md R28, R31, R33, R35), which command can raise which fault
(60_exceptions.md R201), the bytes a command stores to and reads (20_memory.md R81), and the invariant of every run. -/

namespace Sys2Proof.Machine

/-! ### Legal registers of a ready unit -/

/-- "legal values after a successful DDC.INIT" (R28), with the range of the cursor and of the write index (R29, R30). -/
abbrev Ddc.Legal (d : Ddc) : Prop :=
  (d.ti.toNat % 2 = 0 ∧ d.ti.toNat + 2 * d.period.toNat ≤ Config.memTop)
    ∧ (d.tq.toNat % 2 = 0 ∧ d.tq.toNat + 2 * d.period.toNat ≤ Config.memTop)
    ∧ 0 < d.period.toNat ∧ 0 < d.ratio.toNat ∧ d.shift.toNat ≤ Config.shiftMax
    ∧ (0 < d.cap.toNat → d.dst.toNat % 4 = 0 ∧ d.dst.toNat + 4 * d.cap.toNat ≤ Config.memTop)
    ∧ (d.cap.toNat = 0 → d.dst = 0 ∧ d.wpos = 0)
    ∧ d.lutpos.toNat < d.period.toNat ∧ (0 < d.cap.toNat → d.wpos.toNat < d.cap.toNat)

/-- "legal values after a successful AFT.INIT" (R31, R32). -/
abbrev Aft.Legal (f : Aft) : Prop :=
  (f.tc.toNat % 2 = 0 ∧ f.tc.toNat + 2 * f.period.toNat ≤ Config.memTop)
    ∧ (f.mode.toNat = 1 → f.ts.toNat % 2 = 0 ∧ f.ts.toNat + 2 * f.period.toNat ≤ Config.memTop)
    ∧ 0 < f.period.toNat ∧ f.shift.toNat ≤ Config.shiftMax ∧ f.mode.toNat ≤ 1 ∧ f.lutpos.toNat < f.period.toNat

/-- "legal values after a successful AMD.INIT" (R33). -/
abbrev Amd.Legal (u : Amd) : Prop :=
  u.qa.toNat ≤ Config.pshMax ∧ u.qb.toNat ≤ Config.pshMax ∧ u.alpha.toNat ≤ Config.fracOne

/-- "legal values after a successful SSB.INIT" (R35, R36). -/
abbrev Ssb.Legal (u : Ssb) : Prop :=
  u.ringBegin.toNat % 4 = 0 ∧ u.ringEnd.toNat % 4 = 0 ∧ u.ringBegin.toNat < u.ringEnd.toNat
    ∧ 0 < u.freq.toNat ∧ u.period.toNat = u.rate.toNat / u.freq.toNat ∧ u.shift.toNat = u.period.toNat / 4
    ∧ u.len.toNat = (u.ringEnd.toNat - u.ringBegin.toNat) / 4 ∧ u.shift.toNat ≤ u.len.toNat

/-! ### Fault registers -/

/-- The column "raised by" of R201: whether a CMD write of the word `w` can raise `c`; NONE is raised by nothing. -/
def Cause.raisedBy (c : Cause) (w : Word) : Bool :=
  match c with
  | .none => false
  | .illegalCmd => match decode w with | .error _ => true | .ok _ => false
  | .notReady => [encode .ddcProc, encode .aftMix, encode .amdDet, encode .ssbDet].contains w
  | .cfgZeroPeriod => [encode .ddcInit, encode .aftInit].contains w
  | .cfgZeroRatio => w == encode .ddcInit
  | .cfgZeroFreq => w == encode .ssbInit
  | .cfgShiftExceeds => w == encode .ssbInit
  | .cfgParam => [encode .ddcInit, encode .aftInit, encode .amdInit].contains w
  | .cfgAddr => [encode .ddcInit, encode .aftInit, encode .ssbInit].contains w
  | .range => [encode .ddcProc, encode .aftMix, encode .amdDet, encode .ssbDet].contains w

/-- FCAUSE and FCMD hold 0 while FAULT = 0 (R25, R26), and what a fault recorded while FAULT = 1 (R201, R202). -/
abbrev FaultRegsOk (s : State) : Prop :=
  (s.status.fault = false → s.fcause = .none ∧ s.fcmd = 0) ∧ (s.status.fault = true → s.fcause.raisedBy s.fcmd = true)

/-! ### The invariant -/

/-- What holds of every state of every run, whatever data memory held at the start. A unit that is not ready has never been touched since
reset, so its registers are 0 (R42, R230). -/
structure Inv (s : State) : Prop where
  mem_wf : s.mem.wf = true
  ddc_legal : s.status.ddcRdy = true → s.ddc.Legal
  ddc_idle : s.status.ddcRdy = false → s.ddc = Ddc.reset
  aft_legal : s.status.aftRdy = true → s.aft.Legal
  aft_idle : s.status.aftRdy = false → s.aft = Aft.reset
  amd_legal : s.status.amdRdy = true → s.amd.Legal
  amd_idle : s.status.amdRdy = false → s.amd = Amd.reset
  ssb_legal : s.status.ssbRdy = true → s.ssb.Legal
  ssb_idle : s.status.ssbRdy = false → s.ssb = Ssb.reset
  fault_regs : FaultRegsOk s

/-! ### Footprints (R81) -/

/-- Byte address `a` lies in the `len` bytes from `base`. -/
abbrev InSpan (a base len : Nat) : Prop := base ≤ a ∧ a < base + len

/-- The address of output `k` of a DDC.PROC that starts with the registers `d`: slot (WPOS + k) mod CAP of the ring, or element `k` of
`dst` (R119). It is the address `ddcOutAddr` gives when output `k` is reached. -/
def ddcSlotAddr (d : Ddc) (dst k : Nat) : Nat :=
  if d.cap.toNat > 0 then d.dst.toNat + 4 * ((d.wpos.toNat + k) % d.cap.toNat) else dst + 4 * k

/-- The bytes DDC.PROC stores to (R81). -/
abbrev ddcStores (s : State) (a : Nat) : Prop := ∃ k < ddcCount s, InSpan a (ddcSlotAddr s.ddc (opDst s) k) 4

/-- The bytes AFT.MIX stores to (R81). -/
abbrev aftStores (s : State) (a : Nat) : Prop := InSpan a (opDst s) (4 * elemCount s 4)

/-- The bytes AMD.DET and SSB.DET store to (R81). -/
abbrev audioStores (s : State) (a : Nat) : Prop := InSpan a (opDst s) (2 * elemCount s 4)

/-- The bytes DDC.PROC may read: the complete groups of the input and both tables (R81). -/
abbrev ddcReads (s : State) (a : Nat) : Prop :=
  InSpan a (opBegin s) (2 * (ddcCount s * s.ddc.ratio.toNat)) ∨ InSpan a s.ddc.ti.toNat (2 * s.ddc.period.toNat)
    ∨ InSpan a s.ddc.tq.toNat (2 * s.ddc.period.toNat)

/-- The bytes AFT.MIX may read: the input, the coefficient table, in mode 1 the sine table (R81). -/
abbrev aftReads (s : State) (a : Nat) : Prop :=
  InSpan a (opBegin s) (4 * elemCount s 4) ∨ InSpan a s.aft.tc.toNat (2 * s.aft.period.toNat)
    ∨ (s.aft.mode.toNat = 1 ∧ InSpan a s.aft.ts.toNat (2 * s.aft.period.toNat))

/-- The bytes AMD.DET may read: the input (R81). -/
abbrev amdReads (s : State) (a : Nat) : Prop := InSpan a (opBegin s) (4 * elemCount s 4)

/-- The bytes SSB.DET may read: I of the input and Q of the ring's slots (R81). -/
abbrev ssbReads (s : State) (a : Nat) : Prop :=
  (∃ k < elemCount s 4, InSpan a (opBegin s + 4 * k) 2) ∨ (∃ k < s.ssb.len.toNat, InSpan a (s.ssb.ringBegin.toNat + 4 * k + 2) 2)

/-! ### When a command executes normally -/

/-- The checks of DDC.INIT all pass (R111). -/
abbrev ddcInitOk (s : State) : Prop :=
  0 < s.args.a2.toNat ∧ 0 < s.args.a3.toNat ∧ s.args.a4.toNat ≤ 31
    ∧ s.args.a0.toNat % 2 = 0 ∧ s.args.a0.toNat + 2 * s.args.a2.toNat ≤ 2 ^ 32
    ∧ s.args.a1.toNat % 2 = 0 ∧ s.args.a1.toNat + 2 * s.args.a2.toNat ≤ 2 ^ 32
    ∧ (0 < s.args.a6.toNat → s.args.a5.toNat % 4 = 0 ∧ s.args.a5.toNat + 4 * s.args.a6.toNat ≤ 2 ^ 32)

/-- The checks of AFT.INIT all pass (R131). -/
abbrev aftInitOk (s : State) : Prop :=
  0 < s.args.a2.toNat ∧ s.args.a3.toNat ≤ 31 ∧ s.args.a4.toNat ≤ 1
    ∧ s.args.a0.toNat % 2 = 0 ∧ s.args.a0.toNat + 2 * s.args.a2.toNat ≤ 2 ^ 32
    ∧ (s.args.a4.toNat = 1 → s.args.a1.toNat % 2 = 0 ∧ s.args.a1.toNat + 2 * s.args.a2.toNat ≤ 2 ^ 32)

/-- The check of AMD.INIT passes (R146). -/
abbrev amdInitOk (s : State) : Prop := s.args.a3.toNat ≤ 63 ∧ s.args.a4.toNat ≤ 63 ∧ s.args.a5.toNat ≤ 65536

/-- The checks of SSB.INIT all pass (R166). -/
abbrev ssbInitOk (s : State) : Prop :=
  0 < s.args.a3.toNat ∧ s.args.a0.toNat % 4 = 0 ∧ s.args.a1.toNat % 4 = 0 ∧ s.args.a0.toNat < s.args.a1.toNat
    ∧ s.args.a2.toNat / s.args.a3.toNat / 4 ≤ (s.args.a1.toNat - s.args.a0.toNat) / 4

/-- The range operands of a processing command are in order and aligned to elements of `size` bytes (R98, R66). -/
abbrev rangeOk (s : State) (size : Nat) : Prop :=
  s.args.a0.toNat ≤ s.args.a1.toNat ∧ s.args.a0.toNat % size = 0 ∧ s.args.a1.toNat % size = 0

/-- The destination operand of a processing command with `n` outputs of `size` bytes is aligned and has room (R66, R67). -/
abbrev dstOk (s : State) (n size : Nat) : Prop :=
  0 < n → s.args.a2.toNat % size = 0 ∧ s.args.a2.toNat + size * n ≤ 2 ^ 32

/-- The checks of DDC.PROC all pass (R113). -/
abbrev ddcProcOk (s : State) : Prop :=
  s.status.ddcRdy = true ∧ rangeOk s 2
    ∧ (s.ddc.cap.toNat = 0 → dstOk s ((s.args.a1.toNat - s.args.a0.toNat) / 2 / s.ddc.ratio.toNat) 4)

/-- The checks of AFT.MIX all pass (R133). -/
abbrev aftMixOk (s : State) : Prop :=
  s.status.aftRdy = true ∧ rangeOk s 4 ∧ dstOk s ((s.args.a1.toNat - s.args.a0.toNat) / 4) 4

/-- The checks of AMD.DET all pass (R148). -/
abbrev amdDetOk (s : State) : Prop :=
  s.status.amdRdy = true ∧ rangeOk s 4 ∧ dstOk s ((s.args.a1.toNat - s.args.a0.toNat) / 4) 2

/-- The checks of SSB.DET all pass (R168). -/
abbrev ssbDetOk (s : State) : Prop :=
  s.status.ssbRdy = true ∧ rangeOk s 4 ∧ s.ssb.ringBegin.toNat ≤ s.args.a0.toNat ∧ s.args.a1.toNat ≤ s.ssb.ringEnd.toNat
    ∧ dstOk s ((s.args.a1.toNat - s.args.a0.toNat) / 4) 2

end Sys2Proof.Machine
end

