-- ==== Sys2Proof/Certificates/Slice0/Obligations.lean ====
section
/-! DEFINITION. The statements about the model, each a Prop that cites the rules of spec/ it rests on; proofs are not here. -/

open Sys2Proof Sys2Proof.Machine

/-! ### Encoding and command issue -/

/-- R93: the eight legal command words, exhaustively; every word selects at most one row, and no other word is a command. -/
def Obligations.DecodeSelectsExactlyTheTableWords : Prop :=
  ∀ w : Word,
    (decode w = .ok .ddcInit ↔ w = 0x00000010#32) ∧ (decode w = .ok .ddcProc ↔ w = 0x00000011#32)
      ∧ (decode w = .ok .aftInit ↔ w = 0x00000020#32) ∧ (decode w = .ok .aftMix ↔ w = 0x00000021#32)
      ∧ (decode w = .ok .amdInit ↔ w = 0x00000030#32) ∧ (decode w = .ok .amdDet ↔ w = 0x00000031#32)
      ∧ (decode w = .ok .ssbInit ↔ w = 0x00000040#32) ∧ (decode w = .ok .ssbDet ↔ w = 0x00000041#32)

/-- Encoding and decoding agree in both directions, so no bit of a word is dropped (R90, R93). -/
def Obligations.DecodeInvertsEncode : Prop :=
  ∀ (w : Word) (i : Instr), decode w = .ok i ↔ encode i = w

/-- A few words written out from R90's fields: bits 31:8 zero, UNIT in 7:4, FN in 3:0. -/
def Obligations.WordsFromFieldsDecode : Prop :=
  decode (0#24 ++ 1#4 ++ 0#4) = .ok .ddcInit ∧ decode (0#24 ++ 2#4 ++ 1#4) = .ok .aftMix
    ∧ decode (0#24 ++ 3#4 ++ 1#4) = .ok .amdDet ∧ decode (0#24 ++ 4#4 ++ 0#4) = .ok .ssbInit
    ∧ decode (1#24 ++ 1#4 ++ 0#4) = .error .zeroField ∧ decode (0#24 ++ 5#4 ++ 0#4) = .error .unitField
    ∧ decode (0#24 ++ 1#4 ++ 2#4) = .error .fnField

/-- R183: a CMD write does nothing while a fault stands, raises ILLEGAL_CMD with FCMD the word if the word is none of the eight, and
otherwise runs the command's rule. -/
def Obligations.CommandIssueFollowsTheThreeCases : Prop :=
  ∀ (s : State) (w : Word) (rest : List HostAction), s.script = .regWrite .word 0 w :: rest →
    (s.status.fault = true → step s = .next { s with script := rest })
      ∧ (s.status.fault = false →
          w ∉ [0x10#32, 0x11#32, 0x20#32, 0x21#32, 0x30#32, 0x31#32, 0x40#32, 0x41#32] →
          step s = .next { s with script := rest, status := { s.status with fault := true }, fcause := .illegalCmd, fcmd := w })
      ∧ (∀ i : Instr, s.status.fault = false → w = encode i → step s = exec i { s with script := rest })

/-- A step runs the decoded instruction: when the next host action writes a word that decodes to `i`, the step is `exec i` with that action
taken off the script; and `withFetchWord` arranges exactly that. -/
def Obligations.StepRunsTheDecodedCommand : Prop :=
  (∀ (s : State) (w : Word) (rest : List HostAction) (i : Instr), s.script = .regWrite .word 0 w :: rest → s.status.fault = false →
      decode w = .ok i → step s = exec i { s with script := rest })
    ∧ (∀ (s : State) (i : Instr), s.status.fault = false → step (s.withFetchWord 32 (encode i).toNat) = exec i s)

/-- The host's four arguments-and-command pseudo-operation for a processing command (R101): performing its actions leaves the operands in
A0, A1, A2 and runs the command on them. -/
def Obligations.PseudoOperationLoadsOperandsAndRuns : Prop :=
  ∀ (s : State) (i : Instr) (b e d : Word) (rest : List HostAction),
    i ∈ [Instr.ddcProc, .aftMix, .amdDet, .ssbDet] → s.status.fault = false →
    (∃ acts, pseudoOp i [some (b.toNat : Int), some (e.toNat : Int), some (d.toNat : Int)] = some acts ∧ acts.length = 4
      ∧ encodeScript acts = [(0x010#32, b), (0x014#32, e), (0x018#32, d), (0x000#32, encode i)]
      ∧ Host.Core.run core 4 { s with script := acts ++ rest }
          = exec i { s with args := { s.args with a0 := b, a1 := e, a2 := d }, script := rest })

/-! ### Faults -/

/-- R204, R202: a command write that ends in a fault has set STATUS.FAULT, FCAUSE to a cause and FCMD to the written word, and has changed
nothing else of the block or of memory (R203). -/
def Obligations.FaultEntryRecordsCauseAndWordOnly : Prop :=
  ∀ (s t : State) (w : Word) (rest : List HostAction), s.script = .regWrite .word 0 w :: rest → s.status.fault = false →
    step s = .next t → t.status.fault = true →
    t = { s with script := rest, status := { s.status with fault := true }, fcause := t.fcause, fcmd := w }
      ∧ t.fcause.raisedBy w = true

/-- R205: while STATUS.FAULT = 1 a CMD write does nothing, argument writes and register reads work, and no action but Reset changes STATUS,
FCAUSE or FCMD. -/
def Obligations.FaultedBlockIgnoresCommandsUntilReset : Prop :=
  ∀ s : State, s.status.fault = true →
    (∀ w rest, s.script = .regWrite .word 0 w :: rest → step s = .next { s with script := rest })
      ∧ (∀ r ∈ argRegs, ∀ v rest, s.script = .regWrite .word (BitVec.ofNat 32 r.offset) v :: rest →
          ∃ g, step s = .next { s with script := rest, args := g } ∧ readReg r { s with args := g } = v
            ∧ ∀ r' ∈ argRegs, r' ≠ r → readReg r' { s with args := g } = readReg r' s)
      ∧ (∀ (r : Reg) rest, s.script = .regRead .word (BitVec.ofNat 32 r.offset) :: rest →
          step s = .next { s with script := rest, replies := s.replies ++ [readReg r s] })
      ∧ (∀ t, step s = .next t → (∀ rest, s.script ≠ .reset :: rest) →
          t.status = s.status ∧ t.fcause = s.fcause ∧ t.fcmd = s.fcmd)

/-- R206: the only step out of a fault is Reset, which also clears every ready bit and all unit state. -/
def Obligations.OnlyResetClearsAFault : Prop :=
  ∀ s t : State, s.status.fault = true → step s = .next t →
    (t.status.fault = false ∨ t.fcause ≠ s.fcause ∨ t.fcmd ≠ s.fcmd) →
    (∃ rest, s.script = .reset :: rest)
      ∧ t.status = ⟨false, false, false, false, false⟩ ∧ t.fcause = .none ∧ t.fcmd = 0
      ∧ t.ddc = ⟨0, 0, 0, 0, 0, 0, 0, 0, 0⟩ ∧ t.aft = ⟨0, 0, 0, 0, 0, 0⟩ ∧ t.amd = ⟨0, 0, 0, 0, 0, 0, 0⟩ ∧ t.ssb = ⟨0, 0, 0, 0, 0, 0, 0⟩

/-- R201, R207: the checks of DDC.INIT are reported in their order, the first failing one alone. -/
def Obligations.DdcInitReportsItsFirstFailingCheck : Prop :=
  ∀ s : State,
    let fault (c : Cause) : Host.Outcome State Fault Refusal :=
      .next { s with status := { s.status with fault := true }, fcause := c, fcmd := 0x10 }
    (s.args.a2 = 0 → exec .ddcInit s = fault .cfgZeroPeriod)
      ∧ (s.args.a2 ≠ 0 → s.args.a3 = 0 → exec .ddcInit s = fault .cfgZeroRatio)
      ∧ (s.args.a2 ≠ 0 → s.args.a3 ≠ 0 → 31 < s.args.a4.toNat → exec .ddcInit s = fault .cfgParam)
      ∧ (s.args.a2 ≠ 0 → s.args.a3 ≠ 0 → s.args.a4.toNat ≤ 31 →
          (s.args.a0.toNat % 2 ≠ 0 ∨ s.args.a1.toNat % 2 ≠ 0 ∨ 2 ^ 32 < s.args.a0.toNat + 2 * s.args.a2.toNat
            ∨ 2 ^ 32 < s.args.a1.toNat + 2 * s.args.a2.toNat
            ∨ (0 < s.args.a6.toNat ∧ (s.args.a5.toNat % 4 ≠ 0 ∨ 2 ^ 32 < s.args.a5.toNat + 4 * s.args.a6.toNat))) →
          exec .ddcInit s = fault .cfgAddr)

/-- R201, R207: the checks of AFT.INIT in their order; the sine table counts in mode 1 only. -/
def Obligations.AftInitReportsItsFirstFailingCheck : Prop :=
  ∀ s : State,
    let fault (c : Cause) : Host.Outcome State Fault Refusal :=
      .next { s with status := { s.status with fault := true }, fcause := c, fcmd := 0x20 }
    (s.args.a2 = 0 → exec .aftInit s = fault .cfgZeroPeriod)
      ∧ (s.args.a2 ≠ 0 → (31 < s.args.a3.toNat ∨ 1 < s.args.a4.toNat) → exec .aftInit s = fault .cfgParam)
      ∧ (s.args.a2 ≠ 0 → s.args.a3.toNat ≤ 31 → s.args.a4.toNat ≤ 1 →
          (s.args.a0.toNat % 2 ≠ 0 ∨ 2 ^ 32 < s.args.a0.toNat + 2 * s.args.a2.toNat
            ∨ (s.args.a4 = 1 ∧ (s.args.a1.toNat % 2 ≠ 0 ∨ 2 ^ 32 < s.args.a1.toNat + 2 * s.args.a2.toNat))) →
          exec .aftInit s = fault .cfgAddr)

/-- R201, R207: the checks of AMD.INIT and of SSB.INIT in their order. -/
def Obligations.AmdAndSsbInitReportTheirFirstFailingCheck : Prop :=
  ∀ s : State,
    let fault (c : Cause) (w : Word) : Host.Outcome State Fault Refusal :=
      .next { s with status := { s.status with fault := true }, fcause := c, fcmd := w }
    ((63 < s.args.a3.toNat ∨ 63 < s.args.a4.toNat ∨ 65536 < s.args.a5.toNat) → exec .amdInit s = fault .cfgParam 0x30)
      ∧ (s.args.a3 = 0 → exec .ssbInit s = fault .cfgZeroFreq 0x40)
      ∧ (s.args.a3 ≠ 0 → (s.args.a0.toNat % 4 ≠ 0 ∨ s.args.a1.toNat % 4 ≠ 0 ∨ s.args.a1.toNat ≤ s.args.a0.toNat) →
          exec .ssbInit s = fault .cfgAddr 0x40)
      ∧ (s.args.a3 ≠ 0 → s.args.a0.toNat % 4 = 0 → s.args.a1.toNat % 4 = 0 → s.args.a0.toNat < s.args.a1.toNat →
          (s.args.a1.toNat - s.args.a0.toNat) / 4 < s.args.a2.toNat / s.args.a3.toNat / 4 →
          exec .ssbInit s = fault .cfgShiftExceeds 0x40)

/-- R207: a processing command on a unit that is not ready reports NOT_READY whatever its operands are. -/
def Obligations.ProcessingWithoutInitFaultsNotReady : Prop :=
  ∀ s : State,
    let fault (w : Word) : Host.Outcome State Fault Refusal :=
      .next { s with status := { s.status with fault := true }, fcause := .notReady, fcmd := w }
    (s.status.ddcRdy = false → exec .ddcProc s = fault 0x11) ∧ (s.status.aftRdy = false → exec .aftMix s = fault 0x21)
      ∧ (s.status.amdRdy = false → exec .amdDet s = fault 0x31) ∧ (s.status.ssbRdy = false → exec .ssbDet s = fault 0x41)

/-- R201 (RANGE): a ready unit's processing command faults on a range out of order or misaligned, on an SSB range outside the ring, and on a
destination that is misaligned or too close to 2^32 when there is an output to write. -/
def Obligations.ProcessingOnABadRangeFaultsRange : Prop :=
  ∀ s : State,
    let fault (w : Word) : Host.Outcome State Fault Refusal :=
      .next { s with status := { s.status with fault := true }, fcause := .range, fcmd := w }
    (s.status.ddcRdy = true → (¬ rangeOk s 2 ∨ (s.ddc.cap = 0
          ∧ ¬ dstOk s ((s.args.a1.toNat - s.args.a0.toNat) / 2 / s.ddc.ratio.toNat) 4)) → exec .ddcProc s = fault 0x11)
      ∧ (s.status.aftRdy = true → (¬ rangeOk s 4 ∨ ¬ dstOk s ((s.args.a1.toNat - s.args.a0.toNat) / 4) 4) →
          exec .aftMix s = fault 0x21)
      ∧ (s.status.amdRdy = true → (¬ rangeOk s 4 ∨ ¬ dstOk s ((s.args.a1.toNat - s.args.a0.toNat) / 4) 2) →
          exec .amdDet s = fault 0x31)
      ∧ (s.status.ssbRdy = true → (¬ rangeOk s 4 ∨ s.args.a0.toNat < s.ssb.ringBegin.toNat ∨ s.ssb.ringEnd.toNat < s.args.a1.toNat
            ∨ ¬ dstOk s ((s.args.a1.toNat - s.args.a0.toNat) / 4) 2) →
          exec .ssbDet s = fault 0x41)

/-! ### Reset and the invariant -/

/-- R231, R230: Reset sets every register to 0 and has no other effect, in every state, the faulted ones too. -/
def Obligations.ResetZeroesEveryRegisterAndKeepsMemory : Prop :=
  ∀ (s : State) (rest : List HostAction), s.script = .reset :: rest →
    ∃ t, step s = .next t ∧ t.mem = s.mem ∧ t.script = rest ∧ t.replies = s.replies
      ∧ t.args = ⟨0, 0, 0, 0, 0, 0, 0, 0⟩ ∧ t.status = ⟨false, false, false, false, false⟩ ∧ t.fcause = .none ∧ t.fcmd = 0
      ∧ t.ddc = ⟨0, 0, 0, 0, 0, 0, 0, 0, 0⟩ ∧ t.aft = ⟨0, 0, 0, 0, 0, 0⟩ ∧ t.amd = ⟨0, 0, 0, 0, 0, 0, 0⟩ ∧ t.ssb = ⟨0, 0, 0, 0, 0, 0, 0⟩
      ∧ ∀ o : Nat, readOffset o t = 0

/-- The invariant holds after reset whatever data memory holds (R230, R82). -/
def Obligations.InvariantHoldsAfterReset : Prop :=
  Inv State.reset ∧ ∀ m : Memory, m.wf = true → Inv { State.reset with mem := m }

/-- Every step keeps the invariant: memory stays canonical, a ready unit's registers stay legal (R28, R31, R33, R35), cursors stay inside
their table and ring (R29, R30, R32), a unit that is not ready stays at its reset values, and FCAUSE and FCMD stay what a fault recorded
(R25, R26, R201). -/
def Obligations.EveryStepKeepsTheInvariant : Prop :=
  ∀ s t : State, Inv s → step s = .next t → Inv t

/-! ### STATUS and access rights -/

/-- R24's layout and R201's codes: what the host reads in STATUS and FCAUSE. -/
def Obligations.StatusAndCauseWordsFollowTheTables : Prop :=
  (∀ st : Status,
      st.word.getLsbD 0 = st.ddcRdy ∧ st.word.getLsbD 1 = st.aftRdy ∧ st.word.getLsbD 2 = st.amdRdy ∧ st.word.getLsbD 3 = st.ssbRdy
        ∧ (∀ k, 4 ≤ k → k ≤ 30 → st.word.getLsbD k = false) ∧ st.word.getLsbD 31 = st.fault)
    ∧ [Cause.none, .illegalCmd, .notReady, .cfgZeroPeriod, .cfgZeroRatio, .cfgZeroFreq, .cfgShiftExceeds, .cfgParam, .cfgAddr,
        .range].map Cause.code = [0, 1, 2, 3, 4, 5, 6, 7, 8, 9]

/-- R24, "set by" and "cleared by": over every step a ready bit is set only by its own unit's INIT command and cleared only by Reset, and
FAULT is set only by a CMD write and cleared only by Reset. -/
def Obligations.StatusBitsAreSetAndClearedAsListed : Prop :=
  ∀ s t : State, step s = .next t →
    ((∀ rest, s.script ≠ .reset :: rest) →
        (s.status.ddcRdy = true → t.status.ddcRdy = true) ∧ (s.status.aftRdy = true → t.status.aftRdy = true)
          ∧ (s.status.amdRdy = true → t.status.amdRdy = true) ∧ (s.status.ssbRdy = true → t.status.ssbRdy = true)
          ∧ (s.status.fault = true → t.status.fault = true))
      ∧ (s.status.ddcRdy = false → t.status.ddcRdy = true → ∃ rest, s.script = .regWrite .word 0 0x10 :: rest)
      ∧ (s.status.aftRdy = false → t.status.aftRdy = true → ∃ rest, s.script = .regWrite .word 0 0x20 :: rest)
      ∧ (s.status.amdRdy = false → t.status.amdRdy = true → ∃ rest, s.script = .regWrite .word 0 0x30 :: rest)
      ∧ (s.status.ssbRdy = false → t.status.ssbRdy = true → ∃ rest, s.script = .regWrite .word 0 0x40 :: rest)
      ∧ (s.status.fault = false → t.status.fault = true → ∃ w rest, s.script = .regWrite .word 0 w :: rest)

/-- R42, R29, R32, R34: which host action can change which registers. Configuration changes only by its unit's INIT, a cursor or the filter
state also by the unit's own processing command, the arguments only by a host write to them, data memory only by the host itself or by a
processing command; Reset changes registers and never memory. -/
def Obligations.RegistersChangeOnlyByTheirOwnCommands : Prop :=
  ∀ (s t : State) (a : HostAction) (rest : List HostAction), s.script = a :: rest → a ≠ .reset → step s = .next t →
    (t.args ≠ s.args → ∃ o v, a = .regWrite .word o v ∧ 0x010 ≤ o.toNat ∧ o.toNat ≤ 0x02C)
      ∧ ({ t.ddc with lutpos := s.ddc.lutpos, wpos := s.ddc.wpos } ≠ s.ddc → a = .regWrite .word 0 0x10)
      ∧ (t.ddc ≠ s.ddc → a = .regWrite .word 0 0x10 ∨ a = .regWrite .word 0 0x11)
      ∧ ({ t.aft with lutpos := s.aft.lutpos } ≠ s.aft → a = .regWrite .word 0 0x20)
      ∧ (t.aft ≠ s.aft → a = .regWrite .word 0 0x20 ∨ a = .regWrite .word 0 0x21)
      ∧ ({ t.amd with state := s.amd.state } ≠ s.amd → a = .regWrite .word 0 0x30)
      ∧ (t.amd ≠ s.amd → a = .regWrite .word 0 0x30 ∨ a = .regWrite .word 0 0x31)
      ∧ (t.ssb ≠ s.ssb → a = .regWrite .word 0 0x40)
      ∧ ((t.status ≠ s.status ∨ t.fcause ≠ s.fcause ∨ t.fcmd ≠ s.fcmd) → ∃ w, a = .regWrite .word 0 w)
      ∧ (t.mem ≠ s.mem → (∃ wd ad v, a = .memWrite wd ad v) ∨ a = .regWrite .word 0 0x11 ∨ a = .regWrite .word 0 0x21
          ∨ a = .regWrite .word 0 0x31 ∨ a = .regWrite .word 0 0x41)

/-! ### Host actions -/

/-- R181: a register write reaches A0 .. A7 whether or not a fault stands, issues its value as a command at CMD's offset, and is ignored at
any other offset. -/
def Obligations.RegisterWritesReachArgumentsOnly : Prop :=
  ∀ (s : State) (o v : Word) (rest : List HostAction), s.script = .regWrite .word o v :: rest → o.toNat % 4 = 0 → o.toNat ≤ 0x11C →
    (o = 0 → step s = issueCommand v { s with script := rest })
      ∧ (o = 0x010 → step s = .next { s with script := rest, args := { s.args with a0 := v } })
      ∧ (o = 0x014 → step s = .next { s with script := rest, args := { s.args with a1 := v } })
      ∧ (o = 0x018 → step s = .next { s with script := rest, args := { s.args with a2 := v } })
      ∧ (o = 0x01C → step s = .next { s with script := rest, args := { s.args with a3 := v } })
      ∧ (o = 0x020 → step s = .next { s with script := rest, args := { s.args with a4 := v } })
      ∧ (o = 0x024 → step s = .next { s with script := rest, args := { s.args with a5 := v } })
      ∧ (o = 0x028 → step s = .next { s with script := rest, args := { s.args with a6 := v } })
      ∧ (o = 0x02C → step s = .next { s with script := rest, args := { s.args with a7 := v } })
      ∧ (o ≠ 0 → (o.toNat < 0x010 ∨ 0x02C < o.toNat) → step s = .next { s with script := rest })

/-- R182, R187: a register read returns the register of R40 at the offset, 0 where none is listed and 0 for CMD, and changes no state of the
block. `table` is R40's map in literals: each offset with the field of the state that stands there. -/
def Obligations.RegisterReadsReturnTheRegisterAndChangeNothing : Prop :=
  ∀ (s : State) (o : Word) (rest : List HostAction), s.script = .regRead .word o :: rest → o.toNat % 4 = 0 → o.toNat ≤ 0x11C →
    let table : List (Nat × Word) :=
      [(0x000, 0), (0x004, s.status.word), (0x008, s.fcause.code), (0x00C, s.fcmd), (0x010, s.args.a0), (0x014, s.args.a1),
       (0x018, s.args.a2), (0x01C, s.args.a3), (0x020, s.args.a4), (0x024, s.args.a5), (0x028, s.args.a6), (0x02C, s.args.a7),
       (0x040, s.ddc.ti), (0x044, s.ddc.tq), (0x048, s.ddc.period), (0x04C, s.ddc.ratio), (0x050, s.ddc.shift),
       (0x054, s.ddc.dst), (0x058, s.ddc.cap), (0x05C, s.ddc.lutpos), (0x060, s.ddc.wpos), (0x080, s.aft.tc), (0x084, s.aft.ts),
       (0x088, s.aft.period), (0x08C, s.aft.shift), (0x090, s.aft.mode), (0x094, s.aft.lutpos), (0x0C0, s.amd.pa),
       (0x0C4, s.amd.pb), (0x0C8, s.amd.pc), (0x0CC, s.amd.qa), (0x0D0, s.amd.qb), (0x0D4, s.amd.alpha), (0x0D8, s.amd.state),
       (0x100, s.ssb.ringBegin), (0x104, s.ssb.ringEnd), (0x108, s.ssb.rate), (0x10C, s.ssb.freq), (0x110, s.ssb.period),
       (0x114, s.ssb.shift), (0x118, s.ssb.len)]
    (∀ p ∈ table, o.toNat = p.1 → step s = .next { s with script := rest, replies := s.replies ++ [p.2] })
      ∧ ((∀ p ∈ table, o.toNat ≠ p.1) → step s = .next { s with script := rest, replies := s.replies ++ [0] })
      ∧ (∀ r : Reg, o.toNat = r.offset → step s = .next { s with script := rest, replies := s.replies ++ [readReg r s] })
      ∧ ((∀ r : Reg, o.toNat ≠ r.offset) → step s = .next { s with script := rest, replies := s.replies ++ [0] })
      ∧ readReg .cmd s = 0

/-- R40, R187: no two registers share an offset, every offset is a multiple of 4 below 0x11C, and exactly the listed gaps hold none. -/
def Obligations.RegisterMapHasNoOverlap : Prop :=
  (∀ r r' : Reg, r.offset = r'.offset → r = r') ∧ (∀ r : Reg, r.offset % 4 = 0 ∧ r.offset ≤ 0x118 ∧ Reg.ofOffset r.offset = some r)
    ∧ (∀ o : Nat, o % 4 = 0 → o ≤ 0x11C →
        (Reg.ofOffset o = none ↔
          (0x030 ≤ o ∧ o ≤ 0x03C) ∨ (0x064 ≤ o ∧ o ≤ 0x07C) ∨ (0x098 ≤ o ∧ o ≤ 0x0BC) ∨ (0x0DC ≤ o ∧ o ≤ 0x0FC) ∨ o = 0x11C))

/-- R186: a register access that is not one aligned 32-bit word in 0x000 .. 0x11F is refused. -/
def Obligations.UndefinedRegisterAccessesAreRefused : Prop :=
  ∀ (s : State) (wd : AccessWidth) (o : Word), (wd ≠ .word ∨ o.toNat % 4 ≠ 0 ∨ 0x11F < o.toNat) →
    (∀ v rest, s.script = .regWrite wd o v :: rest → step s = .refused .registerAccessNotDefined)
      ∧ (∀ rest, s.script = .regRead wd o :: rest → step s = .refused .registerAccessNotDefined)

/-- Every host action the spec gives an effect completes (R180, R203), commands that fault among them; and, the model's own choice (log
entry 7), a host memory access that reaches past 2^32, where no byte exists, stops with the fault outsideDataMemory. -/
def Obligations.OnlyIllFormedHostActionsStop : Prop :=
  ∀ s : State,
    ((∀ a rest, s.script = a :: rest → a.wellFormed = true) ↔ ∃ t, step s = .next t)
      ∧ (∀ wd ad v rest, s.script = .memWrite wd ad v :: rest → 2 ^ 32 < ad.toNat + wd.bytes → step s = .fault .outsideDataMemory)
      ∧ (∀ wd ad rest, s.script = .memRead wd ad :: rest → 2 ^ 32 < ad.toNat + wd.bytes → step s = .fault .outsideDataMemory)

/-- R184, R73: what the host writes to data memory it reads back, no other byte changes, and no register of the block changes. -/
def Obligations.HostMemoryWriteReadsBack : Prop :=
  ∀ (s : State) (wd : AccessWidth) (ad v : Word) (rest : List HostAction), s.mem.wf = true →
    s.script = .memWrite wd ad v :: .memRead wd ad :: rest → ad.toNat + wd.bytes ≤ 2 ^ 32 →
    ∃ m, Host.Core.run core 2 s
        = .next { s with mem := m, script := rest, replies := s.replies ++ [BitVec.ofNat 32 (v.toNat % 2 ^ (8 * wd.bytes))] }
      ∧ ∀ a, ¬ InSpan a ad.toNat wd.bytes → m.readByte a = s.mem.readByte a

/-- R217: with no host action to come the block is idle and holds its state. -/
def Obligations.IdleBlockHoldsItsState : Prop :=
  ∀ s : State, s.script = [] → step s = .next s

/-! ### Arithmetic and data memory -/

/-- R12: wrap_N is the residue in the signed range, umod_N the residue in 0 .. 2^N − 1, asr the floor, tz the quotient toward zero. -/
def Obligations.WidthConversionsFollowTheirDefinitions : Prop :=
  (∀ (n : Nat) (v x : Int), 0 < n →
      (wrap n v = x ↔ -(2 : Int) ^ (n - 1) ≤ x ∧ x < (2 : Int) ^ (n - 1) ∧ x % 2 ^ n = v % 2 ^ n))
    ∧ (∀ (n : Nat) (v : Int) (u : Nat), umod n v = u ↔ u < 2 ^ n ∧ (u : Int) % 2 ^ n = v % 2 ^ n)
    ∧ (∀ (v : Int) (k : Nat) (x : Int), asr v k = x ↔ x * 2 ^ k ≤ v ∧ v < (x + 1) * 2 ^ k)
    ∧ (∀ (v : Int) (k : Nat), (0 ≤ v → tz v k = asr v k) ∧ (v < 0 → tz v k = -asr (-v) k))

/-- R62, R63, R64: an element written is stored little-endian in its own bytes, reads back, and no other byte changes. -/
def Obligations.MemoryElementsAreLittleEndian : Prop :=
  ∀ (m : Memory) (a n v : Nat), m.wf = true → a + n ≤ 2 ^ 32 → v < 2 ^ (8 * n) →
    (memWrite m a n v).wf = true
      ∧ (∀ k, k < n → ((memWrite m a n v).readByte (a + k)).toNat = v / 2 ^ (8 * k) % 256)
      ∧ (∀ c, ¬ InSpan c a n → (memWrite m a n v).readByte c = m.readByte c)
      ∧ memRead (memWrite m a n v) a n = v
      ∧ memRead m a n = ∑ k ∈ Finset.range n, (m.readByte (a + k)).toNat * 2 ^ (8 * k)

/-- R64: the IQSample written by WriteIQ(a, i, q) is read back by IAt(a) as i and by QAt(a) as q, each to 16 bits. -/
def Obligations.IQSamplesReadBack : Prop :=
  ∀ (m : Memory) (a : Nat) (i q : Int), m.wf = true → a + 4 ≤ 2 ^ 32 →
    iAt (writeIQ m a i q) a = wrap 16 i ∧ qAt (writeIQ m a i q) a = wrap 16 q

/-- R14, R65: a raw sample is read unsigned, a coefficient, I, Q and a detector output as two's complement, each from its own two bytes, low
byte first; and an element written reads back so. -/
def Obligations.TypedReadsExtendAsTheLayoutsSay : Prop :=
  ∀ (m : Memory) (a : Nat),
    let unsigned (b : Nat) : Int := (m.readByte b).toNat + 256 * (m.readByte (b + 1)).toNat
    let signed (b : Nat) : Int := if unsigned b < 32768 then unsigned b else unsigned b - 65536
    (rawAt m a = unsigned a ∧ coefAt m a = signed a ∧ iAt m a = signed a ∧ qAt m a = signed (a + 2) ∧ audioAt m a = signed a)
      ∧ (m.wf = true → a + 2 ≤ 2 ^ 32 →
        (∀ x : Nat, x < 2 ^ 16 → rawAt (memWrite m a 2 x) a = x)
          ∧ (∀ c : Int, coefAt (memWrite m a 2 (umod 16 c)) a = wrap 16 c)
          ∧ (∀ v : Int, audioAt (writeAudio m a v) a = wrap 16 v))

/-- A data memory in canonical form is determined by its bytes, so equal memories are equal data. -/
def Obligations.CanonicalMemoriesWithEqualBytesAreEqual : Prop :=
  ∀ m m' : Memory, m.wf = true → m'.wf = true → (∀ a, a < 2 ^ 32 → m.readByte a = m'.readByte a) → m = m'

/-! ### INIT commands -/

/-- R111: DDC.INIT with its checks passing latches its operands, zeroes cursor and write index and sets DDC_RDY; nothing else changes. -/
def Obligations.DdcInitLatchesItsOperands : Prop :=
  ∀ s : State, ddcInitOk s →
    exec .ddcInit s = .next { s with
      ddc := { ti := s.args.a0, tq := s.args.a1, period := s.args.a2, ratio := s.args.a3, shift := s.args.a4,
               dst := if s.args.a6 = 0 then 0 else s.args.a5, cap := s.args.a6, lutpos := 0, wpos := 0 }
      status := { s.status with ddcRdy := true } }

/-- R131: AFT.INIT with its checks passing latches its operands (TS unchecked in mode 0), zeroes the cursor and sets AFT_RDY. -/
def Obligations.AftInitLatchesItsOperands : Prop :=
  ∀ s : State, aftInitOk s →
    exec .aftInit s = .next { s with
      aft := { tc := s.args.a0, ts := s.args.a1, period := s.args.a2, shift := s.args.a3, mode := s.args.a4, lutpos := 0 }
      status := { s.status with aftRdy := true } }

/-- R146: AMD.INIT with its check passing latches the calibration, zeroes the filter state and sets AMD_RDY. -/
def Obligations.AmdInitLatchesItsOperands : Prop :=
  ∀ s : State, amdInitOk s →
    exec .amdInit s = .next { s with
      amd := { pa := s.args.a0, pb := s.args.a1, pc := s.args.a2, qa := s.args.a3, qb := s.args.a4, alpha := s.args.a5, state := 0 }
      status := { s.status with amdRdy := true } }

/-- R166, R167: SSB.INIT with its checks passing latches ring and frequencies, stores floor(RATE / FREQ), a quarter of it and the ring
length, and sets SSB_RDY. The stored shift is floor(RATE / (4 FREQ)) and at most the ring length (shift = N accepted, C2). -/
def Obligations.SsbInitLatchesAndComputesTheDelay : Prop :=
  ∀ s : State, ssbInitOk s →
    ∃ u : Ssb, exec .ssbInit s = .next { s with ssb := u, status := { s.status with ssbRdy := true } }
      ∧ u.ringBegin = s.args.a0 ∧ u.ringEnd = s.args.a1 ∧ u.rate = s.args.a2 ∧ u.freq = s.args.a3
      ∧ u.period.toNat = s.args.a2.toNat / s.args.a3.toNat ∧ u.shift.toNat = s.args.a2.toNat / s.args.a3.toNat / 4
      ∧ u.len.toNat = (s.args.a1.toNat - s.args.a0.toNat) / 4
      ∧ u.shift.toNat = s.args.a2.toNat / (4 * s.args.a3.toNat) ∧ u.shift.toNat ≤ u.len.toNat

/-! ### DDC.PROC -/

/-- DDC.PROC completes for every ready, legal unit and every range and destination its checks accept: n = floor(L / R) outputs (R114), the
cursor moves by n·R modulo the period (R115), in ring mode the write index by n modulo the capacity (R119), no other register changes, and
no byte outside the n output slots changes (R79, R81). -/
def Obligations.DdcProcCompletesAndKeepsTheFrame : Prop :=
  ∀ s : State, s.mem.wf = true → s.ddc.Legal → ddcProcOk s →
    let n := (s.args.a1.toNat - s.args.a0.toNat) / 2 / s.ddc.ratio.toNat
    ∃ (d : Ddc) (m : Memory), exec .ddcProc s = .next { s with ddc := d, mem := m }
      ∧ { d with lutpos := s.ddc.lutpos, wpos := s.ddc.wpos } = s.ddc
      ∧ d.lutpos.toNat = (s.ddc.lutpos.toNat + n * s.ddc.ratio.toNat) % s.ddc.period.toNat
      ∧ (0 < s.ddc.cap.toNat → d.wpos.toNat = (s.ddc.wpos.toNat + n) % s.ddc.cap.toNat)
      ∧ (s.ddc.cap.toNat = 0 → d.wpos = s.ddc.wpos)
      ∧ m.wf = true
      ∧ ∀ a, (∀ k, k < n → ¬ InSpan a (ddcSlotAddr s.ddc s.args.a2.toNat k) 4) → m.readByte a = s.mem.readByte a

/-- The address `ddcSlotAddr` names is the one DDC.PROC computes when it reaches output k (R119). -/
def Obligations.DdcSlotAddressIsTheOneUsed : Prop :=
  ∀ (s : State) (k : Nat), s.ddc.Legal →
    ddcSlotAddr s.ddc (opDst s) k
      = ddcOutAddr (forLoop (ddcOutput (opBegin s) (opDst s)) k (s.ddc, s.mem)).1 (opDst s) k

/-- One output of DDC.PROC, any overlap allowed: each sum is the exact sum of R products, raw sample j times the table entry at
(cursor + j) mod P (R116), wrapped once to 32 bits (R117), shifted with floor and cut to 16 bits (R118), written to the slot at the write
index or to the destination (R119). -/
def Obligations.DdcProcOneOutput : Prop :=
  ∀ s : State, s.ddc.Legal → ddcProcOk s → (s.args.a1.toNat - s.args.a0.toNat) / 2 / s.ddc.ratio.toNat = 1 →
    let p := s.ddc.period.toNat
    let r := s.ddc.ratio.toNat
    let sum (table : Nat) : Int := ∑ j ∈ Finset.range r,
      rawAt s.mem (s.args.a0.toNat + 2 * j) * coefAt s.mem (table + 2 * ((s.ddc.lutpos.toNat + j) % p))
    let out (table : Nat) : Int := wrap 16 (wrap 32 (sum table) / 2 ^ s.ddc.shift.toNat)
    exec .ddcProc s = .next { s with
      ddc := { s.ddc with
        lutpos := BitVec.ofNat 32 ((s.ddc.lutpos.toNat + r) % p)
        wpos := if s.ddc.cap = 0 then s.ddc.wpos else BitVec.ofNat 32 ((s.ddc.wpos.toNat + 1) % s.ddc.cap.toNat) }
      mem := writeIQ s.mem
        (if s.ddc.cap = 0 then s.args.a2.toNat else s.ddc.dst.toNat + 4 * s.ddc.wpos.toNat)
        (out s.ddc.ti.toNat) (out s.ddc.tq.toNat) }

/-- R115: splitting a block at a multiple of R gives the same outputs, the same cursor and the same write index as one DDC.PROC over the
whole block, whatever overlaps what. -/
def Obligations.DdcProcSplitsAtGroupBoundaries : Prop :=
  ∀ (s : State) (k : Nat), s.ddc.Legal → ddcProcOk s →
    s.args.a0.toNat + 2 * (k * s.ddc.ratio.toNat) ≤ s.args.a1.toNat →
    let mid := BitVec.ofNat 32 (s.args.a0.toNat + 2 * (k * s.ddc.ratio.toNat))
    let dst := if s.ddc.cap = 0 then BitVec.ofNat 32 (s.args.a2.toNat + 4 * k) else s.args.a2
    ∃ t u, exec .ddcProc { s with args := { s.args with a1 := mid } } = .next t
      ∧ exec .ddcProc { t with args := { s.args with a0 := mid, a2 := dst } } = .next u
      ∧ exec .ddcProc s = .next { u with args := s.args }

/-- The outputs of a whole DDC.PROC whose destination overlaps neither its input nor its tables and, in ring mode, does not come round onto
itself: output k is the contract's formula (R110) on the memory before the command. -/
def Obligations.DdcProcOutputsFollowTheContract : Prop :=
  ∀ s : State, s.mem.wf = true → s.ddc.Legal → ddcProcOk s → (0 < s.ddc.cap.toNat → ddcCount s ≤ s.ddc.cap.toNat) →
    (∀ a, ddcStores s a → ¬ ddcReads s a) →
    ∃ t, exec .ddcProc s = .next t ∧ ∀ k, k < ddcCount s →
      let r := s.ddc.ratio.toNat
      let sum (table : Nat) : Int := ∑ j ∈ Finset.range r,
        rawAt s.mem (s.args.a0.toNat + 2 * (k * r + j))
          * coefAt s.mem (table + 2 * ((s.ddc.lutpos.toNat + k * r + j) % s.ddc.period.toNat))
      let addr := ddcSlotAddr s.ddc s.args.a2.toNat k
      iAt t.mem addr = wrap 16 (wrap 32 (sum s.ddc.ti.toNat) / 2 ^ s.ddc.shift.toNat)
        ∧ qAt t.mem addr = wrap 16 (wrap 32 (sum s.ddc.tq.toNat) / 2 ^ s.ddc.shift.toNat)

/-- R121: the trailing partial group is dropped: the command does what it does on the complete groups alone. -/
def Obligations.DdcProcDropsTheTrailingPartialGroup : Prop :=
  ∀ s : State, s.ddc.Legal → ddcProcOk s →
    let last := BitVec.ofNat 32 (s.args.a0.toNat + 2 * (ddcCount s * s.ddc.ratio.toNat))
    ∃ t, exec .ddcProc { s with args := { s.args with a1 := last } } = .next t ∧ exec .ddcProc s = .next { t with args := s.args }

/-- R122, for I and likewise for Q: when the sum of the products' magnitudes stays within 2^31 − 1 and the shifted sum within 16 bits, the
output is the exact shifted sum: no wrap occurs. -/
def Obligations.DdcOutputIsExactWithinRange : Prop :=
  ∀ (m : Memory) (d : Ddc) (group : Nat),
    let term (table j : Nat) : Int := rawAt m (group + 2 * j) * coefAt m (table + 2 * ((d.lutpos.toNat + j) % d.period.toNat))
    let sum (table : Nat) : Int := ∑ j ∈ Finset.range d.ratio.toNat, term table j
    let noWrap (table : Nat) (acc : Int) : Prop :=
      ∑ j ∈ Finset.range d.ratio.toNat, |term table j| ≤ 2 ^ 31 - 1 →
        acc = sum table
          ∧ (-32768 ≤ sum table / 2 ^ d.shift.toNat → sum table / 2 ^ d.shift.toNat ≤ 32767 →
              scaleDown acc d.shift.toNat = sum table / 2 ^ d.shift.toNat)
    noWrap d.ti.toNat (ddcGroup m d group).1 ∧ noWrap d.tq.toNat (ddcGroup m d group).2

/-! ### AFT.MIX -/

/-- AFT.MIX completes for every ready, legal unit and every range and destination its checks accept; the cursor moves by n modulo the period
(R136), no other register changes, no byte outside the n output samples changes (R81). -/
def Obligations.AftMixCompletesAndKeepsTheFrame : Prop :=
  ∀ s : State, s.mem.wf = true → s.aft.Legal → aftMixOk s →
    let n := (s.args.a1.toNat - s.args.a0.toNat) / 4
    ∃ (l : Word) (m : Memory), exec .aftMix s = .next { s with aft := { s.aft with lutpos := l }, mem := m }
      ∧ l.toNat = (s.aft.lutpos.toNat + n) % s.aft.period.toNat
      ∧ m.wf = true
      ∧ ∀ a, ¬ InSpan a s.args.a2.toNat (4 * n) → m.readByte a = s.mem.readByte a

/-- One sample of AFT.MIX in mode 0, any overlap allowed: I and Q times the one coefficient at the cursor, shifted with floor, cut to 16 bits
(R134, R137). -/
def Obligations.AftMixOneSampleMinimalForm : Prop :=
  ∀ s : State, s.aft.Legal → aftMixOk s → (s.args.a1.toNat - s.args.a0.toNat) / 4 = 1 → s.aft.mode = 0 →
    let c := coefAt s.mem (s.aft.tc.toNat + 2 * s.aft.lutpos.toNat)
    exec .aftMix s = .next { s with
      aft := { s.aft with lutpos := BitVec.ofNat 32 ((s.aft.lutpos.toNat + 1) % s.aft.period.toNat) }
      mem := writeIQ s.mem s.args.a2.toNat (wrap 16 (iAt s.mem s.args.a0.toNat * c / 2 ^ s.aft.shift.toNat))
        (wrap 16 (qAt s.mem s.args.a0.toNat * c / 2 ^ s.aft.shift.toNat)) }

/-- One sample of AFT.MIX in mode 1, any overlap allowed: the complex product of R135, each sum wrapped to 32 bits, then shifted and cut to 16
bits. The spec marks the product's formula as its own choice ("[from general knowledge, not in source]", R135); the model follows it. -/
def Obligations.AftMixOneSampleGeneralForm : Prop :=
  ∀ s : State, s.aft.Legal → aftMixOk s → (s.args.a1.toNat - s.args.a0.toNat) / 4 = 1 → s.aft.mode = 1 →
    let i := iAt s.mem s.args.a0.toNat
    let q := qAt s.mem s.args.a0.toNat
    let c := coefAt s.mem (s.aft.tc.toNat + 2 * s.aft.lutpos.toNat)
    let sn := coefAt s.mem (s.aft.ts.toNat + 2 * s.aft.lutpos.toNat)
    exec .aftMix s = .next { s with
      aft := { s.aft with lutpos := BitVec.ofNat 32 ((s.aft.lutpos.toNat + 1) % s.aft.period.toNat) }
      mem := writeIQ s.mem s.args.a2.toNat (wrap 16 (wrap 32 (i * c - q * sn) / 2 ^ s.aft.shift.toNat))
        (wrap 16 (wrap 32 (i * sn + q * c) / 2 ^ s.aft.shift.toNat)) }

/-- R136: splitting a block at any sample boundary into two AFT.MIX commands gives the same outputs and the same cursor as one. -/
def Obligations.AftMixSplitsAtSampleBoundaries : Prop :=
  ∀ (s : State) (k : Nat), s.aft.Legal → aftMixOk s → s.args.a0.toNat + 4 * k ≤ s.args.a1.toNat →
    let mid := BitVec.ofNat 32 (s.args.a0.toNat + 4 * k)
    ∃ t u, exec .aftMix { s with args := { s.args with a1 := mid } } = .next t
      ∧ exec .aftMix { t with args := { s.args with a0 := mid, a2 := BitVec.ofNat 32 (s.args.a2.toNat + 4 * k) } } = .next u
      ∧ exec .aftMix s = .next { u with args := s.args }

/-- The outputs of a whole AFT.MIX in mode 0 whose destination is its input (in place, R138) or overlaps neither input nor table: output k is
sample k times table entry (cursor + k) mod P, on the memory before the command. -/
def Obligations.AftMixOutputsInPlaceOrDisjoint : Prop :=
  ∀ s : State, s.mem.wf = true → s.aft.Legal → aftMixOk s → s.aft.mode = 0 →
    (∀ a, aftStores s a → ¬ InSpan a s.aft.tc.toNat (2 * s.aft.period.toNat)) →
    (s.args.a2 = s.args.a0 ∨ ∀ a, aftStores s a → ¬ InSpan a s.args.a0.toNat (s.args.a1.toNat - s.args.a0.toNat)) →
    ∃ t, exec .aftMix s = .next t ∧ ∀ k, k < elemCount s 4 →
      let c := coefAt s.mem (s.aft.tc.toNat + 2 * ((s.aft.lutpos.toNat + k) % s.aft.period.toNat))
      iAt t.mem (s.args.a2.toNat + 4 * k) = wrap 16 (iAt s.mem (s.args.a0.toNat + 4 * k) * c / 2 ^ s.aft.shift.toNat)
        ∧ qAt t.mem (s.args.a2.toNat + 4 * k) = wrap 16 (qAt s.mem (s.args.a0.toNat + 4 * k) * c / 2 ^ s.aft.shift.toNat)

/-! ### AMD.DET -/

/-- AMD.DET completes for every ready, legal unit and every range and destination its checks accept; of the registers only the filter state
changes (R33), and no byte outside the n output samples changes (R81). -/
def Obligations.AmdDetCompletesAndKeepsTheFrame : Prop :=
  ∀ s : State, s.mem.wf = true → s.amd.Legal → amdDetOk s →
    let n := (s.args.a1.toNat - s.args.a0.toNat) / 4
    ∃ (y : Word) (m : Memory), exec .amdDet s = .next { s with amd := { s.amd with state := y }, mem := m }
      ∧ (n = 0 → y = s.amd.state ∧ m = s.mem)
      ∧ m.wf = true
      ∧ ∀ a, ¬ InSpan a s.args.a2.toNat (2 * n) → m.readByte a = s.mem.readByte a

/-- One sample of AMD.DET, any overlap allowed: S exact (R149), the quadratic polynomial with each scaled term floored by itself (R151), its low
16 bits (R152), the filter with one floor (R153), the new state's integer part toward zero (R154). -/
def Obligations.AmdDetOneSample : Prop :=
  ∀ s : State, s.amd.Legal → amdDetOk s → (s.args.a1.toNat - s.args.a0.toNat) / 4 = 1 →
    let i := iAt s.mem s.args.a0.toNat
    let q := qAt s.mem s.args.a0.toNat
    let sq := i * i + q * q
    let mag := wrap 16 (s.amd.pa.toInt * sq * sq / 2 ^ s.amd.qa.toNat + s.amd.pb.toInt * sq / 2 ^ s.amd.qb.toNat + s.amd.pc.toInt)
    let y := (s.amd.state.toInt * (65536 - s.amd.alpha.toNat) + mag * 65536 * s.amd.alpha.toNat) / 65536
    0 ≤ sq ∧ sq ≤ 2 ^ 31
      ∧ exec .amdDet s = .next { s with
          amd := { s.amd with state := BitVec.ofInt 32 y }
          mem := writeAudio s.mem s.args.a2.toNat (Int.tdiv y 65536) }

/-- R147: splitting a block at any sample boundary into two AMD.DET commands gives the same outputs and the same final state as one. -/
def Obligations.AmdDetSplitsAtSampleBoundaries : Prop :=
  ∀ (s : State) (k : Nat), s.amd.Legal → amdDetOk s → s.args.a0.toNat + 4 * k ≤ s.args.a1.toNat →
    let mid := BitVec.ofNat 32 (s.args.a0.toNat + 4 * k)
    ∃ t u, exec .amdDet { s with args := { s.args with a1 := mid } } = .next t
      ∧ exec .amdDet { t with args := { s.args with a0 := mid, a2 := BitVec.ofNat 32 (s.args.a2.toNat + 2 * k) } } = .next u
      ∧ exec .amdDet s = .next { u with args := s.args }

/-- The outputs and the final state of a whole AMD.DET whose destination does not overlap its input: the filter folded over the samples'
magnitudes, each output the state after its sample with the fraction dropped toward zero (R153, R154, R34). -/
def Obligations.AmdDetFoldsTheFilterOverTheInput : Prop :=
  ∀ s : State, s.mem.wf = true → s.amd.Legal → amdDetOk s → (∀ a, audioStores s a → ¬ amdReads s a) →
    let mag (k : Nat) : Int := amdMag s.amd (amdSquare (iAt s.mem (s.args.a0.toNat + 4 * k)) (qAt s.mem (s.args.a0.toNat + 4 * k)))
    let y (k : Nat) : Int := (List.range k).foldl (fun y j => amdFilter s.amd.alpha.toNat y (mag j)) s.amd.state.toInt
    ∃ t, exec .amdDet s = .next t ∧ t.amd.state.toInt = y (elemCount s 4)
      ∧ ∀ k, k < elemCount s 4 → audioAt t.mem (s.args.a2.toNat + 2 * k) = Int.tdiv (y (k + 1)) 65536

/-- R155 and R156: from a state in 32 bits and a magnitude in 16 bits the new state stays in 32 bits, the output in 16 bits, and the state
moves toward the target mag·65536 and never passes it. -/
def Obligations.AmdFilterApproachesItsTarget : Prop :=
  ∀ (al : Nat) (y mag : Int), al ≤ 65536 → -2 ^ 31 ≤ y → y < 2 ^ 31 → -32768 ≤ mag → mag ≤ 32767 →
    let y' := amdFilter al y mag
    let target := mag * 65536
    (-2 ^ 31 ≤ y' ∧ y' < 2 ^ 31) ∧ (-32768 ≤ tz y' 16 ∧ tz y' 16 ≤ 32767)
      ∧ (y < target → y ≤ y' ∧ y' ≤ target ∧ (al < 65536 → y' < target))
      ∧ (y > target → 0 < al → target ≤ y' ∧ y' < y)
      ∧ ((y = target ∨ al = 0) → y' = y)

/-! ### SSB.DET -/

/-- SSB.DET completes for every ready, legal unit and every range and destination its checks accept; no register changes (R174), and no byte
outside the n output samples changes (R81). -/
def Obligations.SsbDetCompletesAndKeepsTheFrame : Prop :=
  ∀ s : State, s.mem.wf = true → s.ssb.Legal → ssbDetOk s →
    let n := (s.args.a1.toNat - s.args.a0.toNat) / 4
    ∃ m : Memory, exec .ssbDet s = .next { s with mem := m } ∧ m.wf = true
      ∧ ∀ a, ¬ InSpan a s.args.a2.toNat (2 * n) → m.readByte a = s.mem.readByte a

/-- R169: looking back s ≤ N slots in a ring of N slots stays in the ring: p − s where that is not before the start, else p − s + N; and
s = N lands on the current slot. -/
def Obligations.SsbLookBackWrapsOnce : Prop :=
  ∀ idx sh n : Nat, idx < n → sh ≤ n →
    ssbLookBack idx sh n < n ∧ (sh ≤ idx → ssbLookBack idx sh n + sh = idx) ∧ (idx < sh → ssbLookBack idx sh n + sh = idx + n)
      ∧ ssbLookBack idx n n = idx ∧ ssbLookBack idx sh n = (idx + n - sh) % n

/-- One sample of SSB.DET, any overlap allowed: I of the current IQSample minus Q of the one `shift` slots before it in the ring, cut to 16
bits (R168, R169, R170). -/
def Obligations.SsbDetOneSample : Prop :=
  ∀ s : State, s.ssb.Legal → ssbDetOk s → (s.args.a1.toNat - s.args.a0.toNat) / 4 = 1 →
    let p := s.args.a0.toNat
    let back := if s.ssb.ringBegin.toNat + 4 * s.ssb.shift.toNat ≤ p then p - 4 * s.ssb.shift.toNat
      else p + 4 * s.ssb.len.toNat - 4 * s.ssb.shift.toNat
    exec .ssbDet s = .next { s with mem := writeAudio s.mem s.args.a2.toNat (wrap 16 (iAt s.mem p - qAt s.mem back)) }

/-- Splitting a range at any sample boundary into two SSB.DET commands gives the same outputs as one (R171, R174). -/
def Obligations.SsbDetSplitsAtSampleBoundaries : Prop :=
  ∀ (s : State) (k : Nat), s.ssb.Legal → ssbDetOk s → s.args.a0.toNat + 4 * k ≤ s.args.a1.toNat →
    let mid := BitVec.ofNat 32 (s.args.a0.toNat + 4 * k)
    ∃ t u, exec .ssbDet { s with args := { s.args with a1 := mid } } = .next t
      ∧ exec .ssbDet { t with args := { s.args with a0 := mid, a2 := BitVec.ofNat 32 (s.args.a2.toNat + 2 * k) } } = .next u
      ∧ exec .ssbDet s = .next { u with args := s.args }

/-- The outputs of a whole SSB.DET whose destination does not overlap what it reads: output k is I of slot idx + k minus Q of the slot
`shift` behind it, modulo the ring, on the memory before the command; and issuing the command again changes nothing (R174). -/
def Obligations.SsbDetOutputsAreRepeatable : Prop :=
  ∀ s : State, s.mem.wf = true → s.ssb.Legal → ssbDetOk s → (∀ a, audioStores s a → ¬ ssbReads s a) →
    ∃ t, exec .ssbDet s = .next t ∧ exec .ssbDet t = .next t ∧ ∀ k, k < elemCount s 4 →
      let idx := (s.args.a0.toNat - s.ssb.ringBegin.toNat) / 4 + k
      let back := (idx + s.ssb.len.toNat - s.ssb.shift.toNat) % s.ssb.len.toNat
      audioAt t.mem (s.args.a2.toNat + 2 * k)
        = wrap 16 (iAt s.mem (s.ssb.ringBegin.toNat + 4 * idx) - qAt s.mem (s.ssb.ringBegin.toNat + 4 * back))

/-! ### What a command can read -/

/-- R81: a processing command depends on memory only through the bytes it reads: on two memories that agree on those bytes the unit ends with
the same registers and every byte stored to is the same. -/
def Obligations.ProcessingReadsOnlyItsFootprint : Prop :=
  ∀ (s : State) (m : Memory), s.mem.wf = true → m.wf = true →
    (s.ddc.Legal → ddcProcOk s → (∀ a, ddcReads s a → s.mem.readByte a = m.readByte a) →
        ∃ t u, exec .ddcProc s = .next t ∧ exec .ddcProc { s with mem := m } = .next u ∧ t.ddc = u.ddc
          ∧ ∀ a, ddcStores s a → t.mem.readByte a = u.mem.readByte a)
      ∧ (s.aft.Legal → aftMixOk s → (∀ a, aftReads s a → s.mem.readByte a = m.readByte a) →
        ∃ t u, exec .aftMix s = .next t ∧ exec .aftMix { s with mem := m } = .next u ∧ t.aft = u.aft
          ∧ ∀ a, aftStores s a → t.mem.readByte a = u.mem.readByte a)
      ∧ (s.amd.Legal → amdDetOk s → (∀ a, amdReads s a → s.mem.readByte a = m.readByte a) →
        ∃ t u, exec .amdDet s = .next t ∧ exec .amdDet { s with mem := m } = .next u ∧ t.amd = u.amd
          ∧ ∀ a, audioStores s a → t.mem.readByte a = u.mem.readByte a)
      ∧ (s.ssb.Legal → ssbDetOk s → (∀ a, ssbReads s a → s.mem.readByte a = m.readByte a) →
        ∃ t u, exec .ssbDet s = .next t ∧ exec .ssbDet { s with mem := m } = .next u
          ∧ ∀ a, audioStores s a → t.mem.readByte a = u.mem.readByte a)

/-- An empty range is legal for every ready unit's processing command, writes nothing and changes no state, whatever the destination
operand is; for the DDC a range shorter than R is empty too (R95, R114, D38). -/
def Obligations.EmptyRangesChangeNothing : Prop :=
  ∀ s : State,
    (s.status.ddcRdy = true → rangeOk s 2 → (s.args.a1.toNat - s.args.a0.toNat) / 2 < s.ddc.ratio.toNat → exec .ddcProc s = .next s)
      ∧ (s.status.aftRdy = true → rangeOk s 4 → s.args.a0 = s.args.a1 → exec .aftMix s = .next s)
      ∧ (s.status.amdRdy = true → rangeOk s 4 → s.args.a0 = s.args.a1 → exec .amdDet s = .next s)
      ∧ (s.status.ssbRdy = true → rangeOk s 4 → s.args.a0 = s.args.a1 → s.ssb.ringBegin.toNat ≤ s.args.a0.toNat →
          s.args.a1.toNat ≤ s.ssb.ringEnd.toNat → exec .ssbDet s = .next s)
end

