-- ==== Sys2Proof/Laws/State.lean ====
section
/-! SUPPORT. One lemma per field per update of State, and how updates of one field and of two fields combine. -/

namespace Sys2Proof.Machine

@[simp] theorem State.setArgs_args (s : State) (v) : (s.setArgs v).args = v := rfl
@[simp] theorem State.setArgs_status (s : State) (v) : (s.setArgs v).status = s.status := rfl
@[simp] theorem State.setArgs_fcause (s : State) (v) : (s.setArgs v).fcause = s.fcause := rfl
@[simp] theorem State.setArgs_fcmd (s : State) (v) : (s.setArgs v).fcmd = s.fcmd := rfl
@[simp] theorem State.setArgs_ddc (s : State) (v) : (s.setArgs v).ddc = s.ddc := rfl
@[simp] theorem State.setArgs_aft (s : State) (v) : (s.setArgs v).aft = s.aft := rfl
@[simp] theorem State.setArgs_amd (s : State) (v) : (s.setArgs v).amd = s.amd := rfl
@[simp] theorem State.setArgs_ssb (s : State) (v) : (s.setArgs v).ssb = s.ssb := rfl
@[simp] theorem State.setArgs_mem (s : State) (v) : (s.setArgs v).mem = s.mem := rfl
@[simp] theorem State.setArgs_script (s : State) (v) : (s.setArgs v).script = s.script := rfl
@[simp] theorem State.setArgs_replies (s : State) (v) : (s.setArgs v).replies = s.replies := rfl
@[simp] theorem State.setArgs_same (s : State) : s.setArgs s.args = s := rfl
@[simp] theorem State.setArgs_twice (s : State) (v w) : (s.setArgs v).setArgs w = s.setArgs w := rfl

@[simp] theorem State.setStatus_args (s : State) (v) : (s.setStatus v).args = s.args := rfl
@[simp] theorem State.setStatus_status (s : State) (v) : (s.setStatus v).status = v := rfl
@[simp] theorem State.setStatus_fcause (s : State) (v) : (s.setStatus v).fcause = s.fcause := rfl
@[simp] theorem State.setStatus_fcmd (s : State) (v) : (s.setStatus v).fcmd = s.fcmd := rfl
@[simp] theorem State.setStatus_ddc (s : State) (v) : (s.setStatus v).ddc = s.ddc := rfl
@[simp] theorem State.setStatus_aft (s : State) (v) : (s.setStatus v).aft = s.aft := rfl
@[simp] theorem State.setStatus_amd (s : State) (v) : (s.setStatus v).amd = s.amd := rfl
@[simp] theorem State.setStatus_ssb (s : State) (v) : (s.setStatus v).ssb = s.ssb := rfl
@[simp] theorem State.setStatus_mem (s : State) (v) : (s.setStatus v).mem = s.mem := rfl
@[simp] theorem State.setStatus_script (s : State) (v) : (s.setStatus v).script = s.script := rfl
@[simp] theorem State.setStatus_replies (s : State) (v) : (s.setStatus v).replies = s.replies := rfl
@[simp] theorem State.setStatus_same (s : State) : s.setStatus s.status = s := rfl
@[simp] theorem State.setStatus_twice (s : State) (v w) : (s.setStatus v).setStatus w = s.setStatus w := rfl

@[simp] theorem State.setFcause_args (s : State) (v) : (s.setFcause v).args = s.args := rfl
@[simp] theorem State.setFcause_status (s : State) (v) : (s.setFcause v).status = s.status := rfl
@[simp] theorem State.setFcause_fcause (s : State) (v) : (s.setFcause v).fcause = v := rfl
@[simp] theorem State.setFcause_fcmd (s : State) (v) : (s.setFcause v).fcmd = s.fcmd := rfl
@[simp] theorem State.setFcause_ddc (s : State) (v) : (s.setFcause v).ddc = s.ddc := rfl
@[simp] theorem State.setFcause_aft (s : State) (v) : (s.setFcause v).aft = s.aft := rfl
@[simp] theorem State.setFcause_amd (s : State) (v) : (s.setFcause v).amd = s.amd := rfl
@[simp] theorem State.setFcause_ssb (s : State) (v) : (s.setFcause v).ssb = s.ssb := rfl
@[simp] theorem State.setFcause_mem (s : State) (v) : (s.setFcause v).mem = s.mem := rfl
@[simp] theorem State.setFcause_script (s : State) (v) : (s.setFcause v).script = s.script := rfl
@[simp] theorem State.setFcause_replies (s : State) (v) : (s.setFcause v).replies = s.replies := rfl
@[simp] theorem State.setFcause_same (s : State) : s.setFcause s.fcause = s := rfl
@[simp] theorem State.setFcause_twice (s : State) (v w) : (s.setFcause v).setFcause w = s.setFcause w := rfl

@[simp] theorem State.setFcmd_args (s : State) (v) : (s.setFcmd v).args = s.args := rfl
@[simp] theorem State.setFcmd_status (s : State) (v) : (s.setFcmd v).status = s.status := rfl
@[simp] theorem State.setFcmd_fcause (s : State) (v) : (s.setFcmd v).fcause = s.fcause := rfl
@[simp] theorem State.setFcmd_fcmd (s : State) (v) : (s.setFcmd v).fcmd = v := rfl
@[simp] theorem State.setFcmd_ddc (s : State) (v) : (s.setFcmd v).ddc = s.ddc := rfl
@[simp] theorem State.setFcmd_aft (s : State) (v) : (s.setFcmd v).aft = s.aft := rfl
@[simp] theorem State.setFcmd_amd (s : State) (v) : (s.setFcmd v).amd = s.amd := rfl
@[simp] theorem State.setFcmd_ssb (s : State) (v) : (s.setFcmd v).ssb = s.ssb := rfl
@[simp] theorem State.setFcmd_mem (s : State) (v) : (s.setFcmd v).mem = s.mem := rfl
@[simp] theorem State.setFcmd_script (s : State) (v) : (s.setFcmd v).script = s.script := rfl
@[simp] theorem State.setFcmd_replies (s : State) (v) : (s.setFcmd v).replies = s.replies := rfl
@[simp] theorem State.setFcmd_same (s : State) : s.setFcmd s.fcmd = s := rfl
@[simp] theorem State.setFcmd_twice (s : State) (v w) : (s.setFcmd v).setFcmd w = s.setFcmd w := rfl

@[simp] theorem State.setDdc_args (s : State) (v) : (s.setDdc v).args = s.args := rfl
@[simp] theorem State.setDdc_status (s : State) (v) : (s.setDdc v).status = s.status := rfl
@[simp] theorem State.setDdc_fcause (s : State) (v) : (s.setDdc v).fcause = s.fcause := rfl
@[simp] theorem State.setDdc_fcmd (s : State) (v) : (s.setDdc v).fcmd = s.fcmd := rfl
@[simp] theorem State.setDdc_ddc (s : State) (v) : (s.setDdc v).ddc = v := rfl
@[simp] theorem State.setDdc_aft (s : State) (v) : (s.setDdc v).aft = s.aft := rfl
@[simp] theorem State.setDdc_amd (s : State) (v) : (s.setDdc v).amd = s.amd := rfl
@[simp] theorem State.setDdc_ssb (s : State) (v) : (s.setDdc v).ssb = s.ssb := rfl
@[simp] theorem State.setDdc_mem (s : State) (v) : (s.setDdc v).mem = s.mem := rfl
@[simp] theorem State.setDdc_script (s : State) (v) : (s.setDdc v).script = s.script := rfl
@[simp] theorem State.setDdc_replies (s : State) (v) : (s.setDdc v).replies = s.replies := rfl
@[simp] theorem State.setDdc_same (s : State) : s.setDdc s.ddc = s := rfl
@[simp] theorem State.setDdc_twice (s : State) (v w) : (s.setDdc v).setDdc w = s.setDdc w := rfl

@[simp] theorem State.setAft_args (s : State) (v) : (s.setAft v).args = s.args := rfl
@[simp] theorem State.setAft_status (s : State) (v) : (s.setAft v).status = s.status := rfl
@[simp] theorem State.setAft_fcause (s : State) (v) : (s.setAft v).fcause = s.fcause := rfl
@[simp] theorem State.setAft_fcmd (s : State) (v) : (s.setAft v).fcmd = s.fcmd := rfl
@[simp] theorem State.setAft_ddc (s : State) (v) : (s.setAft v).ddc = s.ddc := rfl
@[simp] theorem State.setAft_aft (s : State) (v) : (s.setAft v).aft = v := rfl
@[simp] theorem State.setAft_amd (s : State) (v) : (s.setAft v).amd = s.amd := rfl
@[simp] theorem State.setAft_ssb (s : State) (v) : (s.setAft v).ssb = s.ssb := rfl
@[simp] theorem State.setAft_mem (s : State) (v) : (s.setAft v).mem = s.mem := rfl
@[simp] theorem State.setAft_script (s : State) (v) : (s.setAft v).script = s.script := rfl
@[simp] theorem State.setAft_replies (s : State) (v) : (s.setAft v).replies = s.replies := rfl
@[simp] theorem State.setAft_same (s : State) : s.setAft s.aft = s := rfl
@[simp] theorem State.setAft_twice (s : State) (v w) : (s.setAft v).setAft w = s.setAft w := rfl

@[simp] theorem State.setAmd_args (s : State) (v) : (s.setAmd v).args = s.args := rfl
@[simp] theorem State.setAmd_status (s : State) (v) : (s.setAmd v).status = s.status := rfl
@[simp] theorem State.setAmd_fcause (s : State) (v) : (s.setAmd v).fcause = s.fcause := rfl
@[simp] theorem State.setAmd_fcmd (s : State) (v) : (s.setAmd v).fcmd = s.fcmd := rfl
@[simp] theorem State.setAmd_ddc (s : State) (v) : (s.setAmd v).ddc = s.ddc := rfl
@[simp] theorem State.setAmd_aft (s : State) (v) : (s.setAmd v).aft = s.aft := rfl
@[simp] theorem State.setAmd_amd (s : State) (v) : (s.setAmd v).amd = v := rfl
@[simp] theorem State.setAmd_ssb (s : State) (v) : (s.setAmd v).ssb = s.ssb := rfl
@[simp] theorem State.setAmd_mem (s : State) (v) : (s.setAmd v).mem = s.mem := rfl
@[simp] theorem State.setAmd_script (s : State) (v) : (s.setAmd v).script = s.script := rfl
@[simp] theorem State.setAmd_replies (s : State) (v) : (s.setAmd v).replies = s.replies := rfl
@[simp] theorem State.setAmd_same (s : State) : s.setAmd s.amd = s := rfl
@[simp] theorem State.setAmd_twice (s : State) (v w) : (s.setAmd v).setAmd w = s.setAmd w := rfl

@[simp] theorem State.setSsb_args (s : State) (v) : (s.setSsb v).args = s.args := rfl
@[simp] theorem State.setSsb_status (s : State) (v) : (s.setSsb v).status = s.status := rfl
@[simp] theorem State.setSsb_fcause (s : State) (v) : (s.setSsb v).fcause = s.fcause := rfl
@[simp] theorem State.setSsb_fcmd (s : State) (v) : (s.setSsb v).fcmd = s.fcmd := rfl
@[simp] theorem State.setSsb_ddc (s : State) (v) : (s.setSsb v).ddc = s.ddc := rfl
@[simp] theorem State.setSsb_aft (s : State) (v) : (s.setSsb v).aft = s.aft := rfl
@[simp] theorem State.setSsb_amd (s : State) (v) : (s.setSsb v).amd = s.amd := rfl
@[simp] theorem State.setSsb_ssb (s : State) (v) : (s.setSsb v).ssb = v := rfl
@[simp] theorem State.setSsb_mem (s : State) (v) : (s.setSsb v).mem = s.mem := rfl
@[simp] theorem State.setSsb_script (s : State) (v) : (s.setSsb v).script = s.script := rfl
@[simp] theorem State.setSsb_replies (s : State) (v) : (s.setSsb v).replies = s.replies := rfl
@[simp] theorem State.setSsb_same (s : State) : s.setSsb s.ssb = s := rfl
@[simp] theorem State.setSsb_twice (s : State) (v w) : (s.setSsb v).setSsb w = s.setSsb w := rfl

@[simp] theorem State.setMem_args (s : State) (v) : (s.setMem v).args = s.args := rfl
@[simp] theorem State.setMem_status (s : State) (v) : (s.setMem v).status = s.status := rfl
@[simp] theorem State.setMem_fcause (s : State) (v) : (s.setMem v).fcause = s.fcause := rfl
@[simp] theorem State.setMem_fcmd (s : State) (v) : (s.setMem v).fcmd = s.fcmd := rfl
@[simp] theorem State.setMem_ddc (s : State) (v) : (s.setMem v).ddc = s.ddc := rfl
@[simp] theorem State.setMem_aft (s : State) (v) : (s.setMem v).aft = s.aft := rfl
@[simp] theorem State.setMem_amd (s : State) (v) : (s.setMem v).amd = s.amd := rfl
@[simp] theorem State.setMem_ssb (s : State) (v) : (s.setMem v).ssb = s.ssb := rfl
@[simp] theorem State.setMem_mem (s : State) (v) : (s.setMem v).mem = v := rfl
@[simp] theorem State.setMem_script (s : State) (v) : (s.setMem v).script = s.script := rfl
@[simp] theorem State.setMem_replies (s : State) (v) : (s.setMem v).replies = s.replies := rfl
@[simp] theorem State.setMem_same (s : State) : s.setMem s.mem = s := rfl
@[simp] theorem State.setMem_twice (s : State) (v w) : (s.setMem v).setMem w = s.setMem w := rfl

@[simp] theorem State.setScript_args (s : State) (v) : (s.setScript v).args = s.args := rfl
@[simp] theorem State.setScript_status (s : State) (v) : (s.setScript v).status = s.status := rfl
@[simp] theorem State.setScript_fcause (s : State) (v) : (s.setScript v).fcause = s.fcause := rfl
@[simp] theorem State.setScript_fcmd (s : State) (v) : (s.setScript v).fcmd = s.fcmd := rfl
@[simp] theorem State.setScript_ddc (s : State) (v) : (s.setScript v).ddc = s.ddc := rfl
@[simp] theorem State.setScript_aft (s : State) (v) : (s.setScript v).aft = s.aft := rfl
@[simp] theorem State.setScript_amd (s : State) (v) : (s.setScript v).amd = s.amd := rfl
@[simp] theorem State.setScript_ssb (s : State) (v) : (s.setScript v).ssb = s.ssb := rfl
@[simp] theorem State.setScript_mem (s : State) (v) : (s.setScript v).mem = s.mem := rfl
@[simp] theorem State.setScript_script (s : State) (v) : (s.setScript v).script = v := rfl
@[simp] theorem State.setScript_replies (s : State) (v) : (s.setScript v).replies = s.replies := rfl
@[simp] theorem State.setScript_same (s : State) : s.setScript s.script = s := rfl
@[simp] theorem State.setScript_twice (s : State) (v w) : (s.setScript v).setScript w = s.setScript w := rfl

@[simp] theorem State.setReplies_args (s : State) (v) : (s.setReplies v).args = s.args := rfl
@[simp] theorem State.setReplies_status (s : State) (v) : (s.setReplies v).status = s.status := rfl
@[simp] theorem State.setReplies_fcause (s : State) (v) : (s.setReplies v).fcause = s.fcause := rfl
@[simp] theorem State.setReplies_fcmd (s : State) (v) : (s.setReplies v).fcmd = s.fcmd := rfl
@[simp] theorem State.setReplies_ddc (s : State) (v) : (s.setReplies v).ddc = s.ddc := rfl
@[simp] theorem State.setReplies_aft (s : State) (v) : (s.setReplies v).aft = s.aft := rfl
@[simp] theorem State.setReplies_amd (s : State) (v) : (s.setReplies v).amd = s.amd := rfl
@[simp] theorem State.setReplies_ssb (s : State) (v) : (s.setReplies v).ssb = s.ssb := rfl
@[simp] theorem State.setReplies_mem (s : State) (v) : (s.setReplies v).mem = s.mem := rfl
@[simp] theorem State.setReplies_script (s : State) (v) : (s.setReplies v).script = s.script := rfl
@[simp] theorem State.setReplies_replies (s : State) (v) : (s.setReplies v).replies = v := rfl
@[simp] theorem State.setReplies_same (s : State) : s.setReplies s.replies = s := rfl
@[simp] theorem State.setReplies_twice (s : State) (v w) : (s.setReplies v).setReplies w = s.setReplies w := rfl

end Sys2Proof.Machine
end

