-- ==== Sys2Proof/Laws/Commands.lean ====
section
/-! SUPPORT. What a command can do, once: it raises the fault of its first failing check, or it runs its effect. -/

namespace Sys2Proof.Machine

@[simp] theorem firstFailing_nil : firstFailing [] = none := rfl

@[simp] theorem firstFailing_cons (fails : Bool) (code : Cause) (rest : List (Bool × Cause)) :
    firstFailing ((fails, code) :: rest) = if fails = true then some code else firstFailing rest := rfl

/-- The cause reported is one of the list, and no check fails when none is reported. -/
theorem firstFailing_eq_none {l : List (Bool × Cause)} : firstFailing l = none ↔ ∀ p ∈ l, p.1 = false := by
  induction l with
  | nil => simp
  | cons p rest ih =>
    obtain ⟨b, c⟩ := p
    cases b <;> simp [ih]

theorem firstFailing_mem {l : List (Bool × Cause)} {c : Cause} (h : firstFailing l = some c) : (true, c) ∈ l := by
  induction l with
  | nil => simp at h
  | cons p rest ih =>
    obtain ⟨b, c'⟩ := p
    cases b
    · exact List.mem_cons_of_mem _ (ih (by simpa using h))
    · have : c' = c := by simpa using h
      simp [this]

@[simp] theorem raiseFault_args (c : Cause) (w : Word) (s : State) : (raiseFault c w s).args = s.args := rfl
@[simp] theorem raiseFault_status (c : Cause) (w : Word) (s : State) : (raiseFault c w s).status = s.status.setFault := rfl
@[simp] theorem raiseFault_fcause (c : Cause) (w : Word) (s : State) : (raiseFault c w s).fcause = c := rfl
@[simp] theorem raiseFault_fcmd (c : Cause) (w : Word) (s : State) : (raiseFault c w s).fcmd = w := rfl
@[simp] theorem raiseFault_ddc (c : Cause) (w : Word) (s : State) : (raiseFault c w s).ddc = s.ddc := rfl
@[simp] theorem raiseFault_aft (c : Cause) (w : Word) (s : State) : (raiseFault c w s).aft = s.aft := rfl
@[simp] theorem raiseFault_amd (c : Cause) (w : Word) (s : State) : (raiseFault c w s).amd = s.amd := rfl
@[simp] theorem raiseFault_ssb (c : Cause) (w : Word) (s : State) : (raiseFault c w s).ssb = s.ssb := rfl
@[simp] theorem raiseFault_mem (c : Cause) (w : Word) (s : State) : (raiseFault c w s).mem = s.mem := rfl
@[simp] theorem raiseFault_script (c : Cause) (w : Word) (s : State) : (raiseFault c w s).script = s.script := rfl
@[simp] theorem raiseFault_replies (c : Cause) (w : Word) (s : State) : (raiseFault c w s).replies = s.replies := rfl

/-- A command whose checks pass runs its effect. -/
theorem runCommand_effect {i : Instr} {checks : List (Bool × Cause)} {effect : State → State} {s : State}
    (h : ∀ p ∈ checks, p.1 = false) : runCommand i checks effect s = .next (effect s) := by
  simp [runCommand, firstFailing_eq_none.2 h]

/-- A command with a failing check raises the first one's fault. -/
theorem runCommand_fault {i : Instr} {checks : List (Bool × Cause)} {effect : State → State} {s : State} {c : Cause}
    (h : firstFailing checks = some c) : runCommand i checks effect s = .next (raiseFault c (encode i) s) := by
  simp [runCommand, h]

/-- All a command can do. -/
theorem runCommand_cases {i : Instr} {checks : List (Bool × Cause)} {effect : State → State} {s : State}
    {o : Host.Outcome State Fault Refusal} (h : runCommand i checks effect s = o) :
    (∃ c, (true, c) ∈ checks ∧ o = .next (raiseFault c (encode i) s)) ∨ ((∀ p ∈ checks, p.1 = false) ∧ o = .next (effect s)) := by
  unfold runCommand at h
  split at h
  · next c hc => exact .inl ⟨c, firstFailing_mem hc, h.symm⟩
  · next hc => exact .inr ⟨firstFailing_eq_none.1 hc, h.symm⟩

/-- The effect of each command when its checks pass. -/
def effectOf (i : Instr) : State → State :=
  match i with
  | .ddcInit => ddcInitEffect
  | .ddcProc => ddcProcEffect
  | .aftInit => aftInitEffect
  | .aftMix => aftMixEffect
  | .amdInit => amdInitEffect
  | .amdDet => amdDetEffect
  | .ssbInit => ssbInitEffect
  | .ssbDet => ssbDetEffect

/-- The checks of each command. -/
def checksOf (i : Instr) (s : State) : List (Bool × Cause) :=
  match i with
  | .ddcInit => ddcInitChecks s
  | .ddcProc => ddcProcChecks s
  | .aftInit => aftInitChecks s
  | .aftMix => aftMixChecks s
  | .amdInit => amdInitChecks s
  | .amdDet => amdDetChecks s
  | .ssbInit => ssbInitChecks s
  | .ssbDet => ssbDetChecks s

/-- Every meaning is its checks and its effect. -/
theorem exec_eq_runCommand (i : Instr) (s : State) : exec i s = runCommand i (checksOf i s) (effectOf i) s := by
  cases i <;> rfl

/-- All a command can do, for any command. -/
theorem exec_cases {i : Instr} {s : State} {o : Host.Outcome State Fault Refusal} (h : exec i s = o) :
    (∃ c, (true, c) ∈ checksOf i s ∧ o = .next (raiseFault c (encode i) s))
      ∨ ((∀ p ∈ checksOf i s, p.1 = false) ∧ o = .next (effectOf i s)) :=
  runCommand_cases (exec_eq_runCommand i s ▸ h)

/-- A command always completes or faults, both of which are next states (R203). -/
theorem exec_next (i : Instr) (s : State) : ∃ t, exec i s = .next t := by
  rcases exec_cases (rfl : exec i s = exec i s) with ⟨c, -, h⟩ | ⟨-, h⟩
  · exact ⟨_, h⟩
  · exact ⟨_, h⟩

/-- No command's effect touches FAULT, FCAUSE, FCMD, the arguments or the host's side. -/
theorem effectOf_keeps (i : Instr) (s : State) :
    (effectOf i s).status.fault = s.status.fault ∧ (effectOf i s).fcause = s.fcause ∧ (effectOf i s).fcmd = s.fcmd
      ∧ (effectOf i s).args = s.args ∧ (effectOf i s).script = s.script ∧ (effectOf i s).replies = s.replies := by
  cases i <;> exact ⟨rfl, rfl, rfl, rfl, rfl, rfl⟩

end Sys2Proof.Machine
end

