-- ==== Sys2Proof/Laws/Checks.lean ====
section
/-! SUPPORT. For each command, its checks all pass exactly when its operands meet the spec's conditions, so it completes exactly then. -/

namespace Sys2Proof.Machine

theorem bufferBad_eq_false (base count size : Nat) :
    bufferBad base count size = false ↔ base % size = 0 ∧ base + size * count ≤ 4294967296 := by
  simp [bufferBad]

theorem rangeBad_eq_false (s : State) (size : Nat) : rangeBad s size = false ↔ rangeOk s size := by
  simp only [rangeBad, Bool.or_eq_false_iff, decide_eq_false_iff_not, ne_eq, not_not, not_lt, and_assoc]
  rfl

theorem dstBad_eq_false (s : State) (n size : Nat) : dstBad s n size = false ↔ dstOk s n size := by
  simp only [dstBad, Bool.and_eq_false_iff, Bool.or_eq_false_iff, decide_eq_false_iff_not, ne_eq, not_not, gt_iff_lt, not_lt]
  simp only [opDst, Config.memTop, dstOk]
  constructor
  · rintro (h | h) hn
    · omega
    · exact h
  · intro h
    by_cases hn : 0 < n
    · exact .inr (h hn)
    · exact .inl (by omega)

theorem ddcInit_passes (s : State) : (∀ p ∈ ddcInitChecks s, p.1 = false) ↔ ddcInitOk s := by
  simp only [ddcInitChecks, List.forall_mem_cons, List.not_mem_nil, false_implies, implies_true, and_true,
    Bool.or_eq_false_iff, Bool.and_eq_false_iff, decide_eq_false_iff_not, bufferBad_eq_false, ddcInitOk, Config.shiftMax]
  constructor
  · rintro ⟨h1, h2, h3, ⟨h4, h5⟩, h6⟩
    refine ⟨by omega, by omega, by omega, h4.1, h4.2, h5.1, h5.2, fun h => ?_⟩
    exact h6.resolve_left (by omega)
  · rintro ⟨h1, h2, h3, h4, h5, h6, h7, h8⟩
    refine ⟨by omega, by omega, by simpa using h3, ⟨⟨h4, h5⟩, h6, h7⟩, ?_⟩
    by_cases h : 0 < s.args.a6.toNat
    · exact .inr (h8 h)
    · exact .inl (by omega)

theorem aftInit_passes (s : State) : (∀ p ∈ aftInitChecks s, p.1 = false) ↔ aftInitOk s := by
  simp only [aftInitChecks, List.forall_mem_cons, List.not_mem_nil, false_implies, implies_true, and_true,
    Bool.or_eq_false_iff, Bool.and_eq_false_iff, decide_eq_false_iff_not, bufferBad_eq_false, aftInitOk, Config.shiftMax]
  constructor
  · rintro ⟨h1, ⟨h2, h3⟩, h4, h5⟩
    exact ⟨by omega, by simpa using h2, by omega, h4.1, h4.2, fun h => h5.resolve_left (by omega)⟩
  · rintro ⟨h1, h2, h3, h4, h5, h6⟩
    refine ⟨by omega, ⟨by simpa using h2, by omega⟩, ⟨h4, h5⟩, ?_⟩
    by_cases h : s.args.a4.toNat = 1
    · exact .inr (h6 h)
    · exact .inl h

theorem amdInit_passes (s : State) : (∀ p ∈ amdInitChecks s, p.1 = false) ↔ amdInitOk s := by
  simp [amdInitChecks, and_assoc]

theorem ssbInit_passes (s : State) : (∀ p ∈ ssbInitChecks s, p.1 = false) ↔ ssbInitOk s := by
  simp only [ssbInitChecks, List.forall_mem_cons, List.not_mem_nil, false_implies, implies_true, and_true,
    Bool.or_eq_false_iff, decide_eq_false_iff_not, ne_eq, not_not, gt_iff_lt, not_lt]
  simp only [ssbShift, ssbPeriod, ssbLen, udiv, ssbInitOk]
  omega

theorem ddcProc_passes (s : State) : (∀ p ∈ ddcProcChecks s, p.1 = false) ↔ ddcProcOk s := by
  simp only [ddcProcChecks, List.forall_mem_cons, List.not_mem_nil, false_implies, implies_true, and_true,
    Bool.and_eq_false_iff, decide_eq_false_iff_not, rangeBad_eq_false, dstBad_eq_false, Bool.not_eq_false', ddcProcOk]
  refine and_congr_right fun _ => and_congr_right fun _ => ?_
  simp only [ddcCount, elemCount, udiv, opBegin, opEnd]
  tauto

theorem aftMix_passes (s : State) : (∀ p ∈ aftMixChecks s, p.1 = false) ↔ aftMixOk s := by
  simp only [aftMixChecks, List.forall_mem_cons, List.not_mem_nil, false_implies, implies_true, and_true,
    rangeBad_eq_false, dstBad_eq_false, Bool.not_eq_false', aftMixOk, elemCount, opBegin, opEnd]

theorem amdDet_passes (s : State) : (∀ p ∈ amdDetChecks s, p.1 = false) ↔ amdDetOk s := by
  simp only [amdDetChecks, List.forall_mem_cons, List.not_mem_nil, false_implies, implies_true, and_true,
    rangeBad_eq_false, dstBad_eq_false, Bool.not_eq_false', amdDetOk, elemCount, opBegin, opEnd]

theorem ssbOutsideRing_eq_false (s : State) :
    ssbOutsideRing s = false ↔ s.ssb.ringBegin.toNat ≤ s.args.a0.toNat ∧ s.args.a1.toNat ≤ s.ssb.ringEnd.toNat := by
  simp only [ssbOutsideRing, Bool.or_eq_false_iff, decide_eq_false_iff_not, gt_iff_lt, not_lt]
  rfl

theorem ssbDet_passes (s : State) : (∀ p ∈ ssbDetChecks s, p.1 = false) ↔ ssbDetOk s := by
  simp only [ssbDetChecks, List.forall_mem_cons, List.not_mem_nil, false_implies, implies_true, and_true,
    Bool.or_eq_false_iff, rangeBad_eq_false, ssbOutsideRing_eq_false, dstBad_eq_false, Bool.not_eq_false', ssbDetOk, elemCount,
    opBegin, opEnd, and_assoc]

/-! ### A command whose checks pass completes with its effect -/

theorem exec_ddcInit_ok {s : State} (h : ddcInitOk s) : exec .ddcInit s = .next (ddcInitEffect s) :=
  runCommand_effect ((ddcInit_passes s).2 h)

theorem exec_aftInit_ok {s : State} (h : aftInitOk s) : exec .aftInit s = .next (aftInitEffect s) :=
  runCommand_effect ((aftInit_passes s).2 h)

theorem exec_amdInit_ok {s : State} (h : amdInitOk s) : exec .amdInit s = .next (amdInitEffect s) :=
  runCommand_effect ((amdInit_passes s).2 h)

theorem exec_ssbInit_ok {s : State} (h : ssbInitOk s) : exec .ssbInit s = .next (ssbInitEffect s) :=
  runCommand_effect ((ssbInit_passes s).2 h)

theorem exec_ddcProc_ok {s : State} (h : ddcProcOk s) : exec .ddcProc s = .next (ddcProcEffect s) :=
  runCommand_effect ((ddcProc_passes s).2 h)

theorem exec_aftMix_ok {s : State} (h : aftMixOk s) : exec .aftMix s = .next (aftMixEffect s) :=
  runCommand_effect ((aftMix_passes s).2 h)

theorem exec_amdDet_ok {s : State} (h : amdDetOk s) : exec .amdDet s = .next (amdDetEffect s) :=
  runCommand_effect ((amdDet_passes s).2 h)

theorem exec_ssbDet_ok {s : State} (h : ssbDetOk s) : exec .ssbDet s = .next (ssbDetEffect s) :=
  runCommand_effect ((ssbDet_passes s).2 h)

/-- A check of a command reports only a cause that R201 lists for that command. -/
theorem checksOf_raisedBy {i : Instr} {s : State} {c : Cause} (h : (true, c) ∈ checksOf i s) : c.raisedBy (encode i) = true := by
  have key : ∀ l : List (Bool × Cause), (true, c) ∈ l → (∀ p ∈ l, p.2.raisedBy (encode i) = true) → c.raisedBy (encode i) = true :=
    fun _ h1 h2 => h2 _ h1
  refine key _ h ?_
  cases i <;> simp only [checksOf, ddcInitChecks, ddcProcChecks, aftInitChecks, aftMixChecks, amdInitChecks, amdDetChecks,
    ssbInitChecks, ssbDetChecks, List.forall_mem_cons, List.not_mem_nil, false_implies, implies_true, and_true] <;> decide

end Sys2Proof.Machine
end

