-- ==== Sys2Proof/Laws/Arith.lean ====
section
/-! SUPPORT. The laws of the width conversions of spec/00_scope.md R12 and of the counted loop of R16. -/

namespace Sys2Proof.Machine

/-! ### Width conversions -/

theorem two_pow_pred {n : Nat} (hn : 0 < n) : ((2 ^ n : Nat) : Int) = 2 * ((2 ^ (n - 1) : Nat) : Int) := by
  obtain ⟨k, rfl⟩ := Nat.exists_eq_succ_of_ne_zero (by omega : n ≠ 0)
  push_cast [pow_succ]
  ring

/-- wrap_N lands in the signed range. -/
theorem wrap_range {n : Nat} (hn : 0 < n) (v : Int) :
    -((2 ^ (n - 1) : Nat) : Int) ≤ wrap n v ∧ wrap n v < ((2 ^ (n - 1) : Nat) : Int) := by
  have h2 := two_pow_pred hn
  have hp : (0 : Int) < ((2 ^ n : Nat) : Int) := by positivity
  have h0 := Int.emod_nonneg v hp.ne'
  have h1 := Int.emod_lt_of_pos v hp
  unfold wrap
  dsimp only
  split <;> omega

/-- wrap_N changes a value by a multiple of 2^N. -/
theorem wrap_emod (n : Nat) (v : Int) : wrap n v % ((2 ^ n : Nat) : Int) = v % ((2 ^ n : Nat) : Int) := by
  unfold wrap
  dsimp only
  split
  · exact Int.emod_emod_of_dvd _ (dvd_refl _)
  · rw [Int.sub_emod, Int.emod_self, Int.sub_zero, Int.emod_emod_of_dvd _ (dvd_refl _), Int.emod_emod_of_dvd _ (dvd_refl _)]

/-- wrap_N depends on the residue alone. -/
theorem wrap_congr {n : Nat} {v w : Int} (h : v % ((2 ^ n : Nat) : Int) = w % ((2 ^ n : Nat) : Int)) : wrap n v = wrap n w := by
  unfold wrap
  simp only [h]

/-- A value in the signed range is its own wrap. -/
theorem wrap_of_range {n : Nat} (hn : 0 < n) {v : Int} (h1 : -((2 ^ (n - 1) : Nat) : Int) ≤ v) (h2 : v < ((2 ^ (n - 1) : Nat) : Int)) :
    wrap n v = v := by
  have h := two_pow_pred hn
  unfold wrap
  dsimp only
  by_cases hv : 0 ≤ v
  · rw [Int.emod_eq_of_lt hv (by omega), if_pos h2]
  · have hm : v % ((2 ^ n : Nat) : Int) = v + ((2 ^ n : Nat) : Int) := by
      rw [← Int.add_emod_right, Int.emod_eq_of_lt (by omega) (by omega)]
    rw [hm, if_neg (by omega)]
    omega

@[simp] theorem wrap_wrap {n : Nat} (v : Int) : wrap n (wrap n v) = wrap n v := wrap_congr (wrap_emod n v)

/-- Wrapping a term before an addition does not change the wrapped sum. -/
theorem wrap_add_wrap (n : Nat) (v w : Int) : wrap n (wrap n v + w) = wrap n (v + w) :=
  wrap_congr (by rw [Int.add_emod, wrap_emod, ← Int.add_emod])

/-- umod_N as an integer is the residue. -/
theorem umod_cast (n : Nat) (v : Int) : ((umod n v : Nat) : Int) = v % ((2 ^ n : Nat) : Int) :=
  Int.toNat_of_nonneg (Int.emod_nonneg v (by positivity))

/-- umod_N lands below 2^N. -/
theorem umod_lt (n : Nat) (v : Int) : umod n v < 2 ^ n := by
  have h := umod_cast n v
  have hp : (0 : Int) < ((2 ^ n : Nat) : Int) := by positivity
  have := Int.emod_lt_of_pos v hp
  omega

/-- Reading an N-bit pattern as signed undoes umod_N up to wrap_N. -/
@[simp] theorem sext_umod (n : Nat) (v : Int) : sext n (umod n v) = wrap n v :=
  wrap_congr (by rw [umod_cast, Int.emod_emod_of_dvd _ (dvd_refl _)])

/-- The signed reading lies in the signed range. -/
theorem sext_range {n : Nat} (hn : 0 < n) (u : Nat) :
    -((2 ^ (n - 1) : Nat) : Int) ≤ sext n u ∧ sext n u < ((2 ^ (n - 1) : Nat) : Int) := wrap_range hn _

/-- asr is the floor: the largest integer whose product with 2^k does not exceed v. -/
theorem asr_bounds (v : Int) (k : Nat) : asr v k * 2 ^ k ≤ v ∧ v < (asr v k + 1) * 2 ^ k := by
  have hp : (0 : Int) < ((2 ^ k : Nat) : Int) := by positivity
  have h1 := Int.emod_add_mul_ediv v ((2 ^ k : Nat) : Int)
  have h2 := Int.emod_nonneg v hp.ne'
  have h3 := Int.emod_lt_of_pos v hp
  have hc : ((2 ^ k : Nat) : Int) = 2 ^ k := by push_cast; rfl
  rw [hc] at h1 h2 h3
  unfold asr
  rw [hc]
  constructor
  · linarith [mul_comm (v / 2 ^ k) ((2 : Int) ^ k)]
  · linarith [mul_comm (v / 2 ^ k) ((2 : Int) ^ k)]

@[simp] theorem asr_zero (v : Int) : asr v 0 = v := by simp [asr]

/-! ### The counted loop -/

@[simp] theorem forLoop_zero {α : Type} (body : Nat → α → α) (x : α) : forLoop body 0 x = x := rfl

theorem forLoop_succ {α : Type} (body : Nat → α → α) (n : Nat) (x : α) : forLoop body (n + 1) x = body n (forLoop body n x) := rfl

theorem forLoop_one {α : Type} (body : Nat → α → α) (x : α) : forLoop body 1 x = body 0 x := rfl

/-- A loop splits at any iteration. -/
theorem forLoop_add {α : Type} (body : Nat → α → α) (n k : Nat) (x : α) :
    forLoop body (n + k) x = forLoop (fun j => body (n + j)) k (forLoop body n x) := by
  induction k with
  | zero => rfl
  | succ k ih => rw [← Nat.add_assoc, forLoop_succ, forLoop_succ, ih]

/-- What holds before a loop and is kept by every iteration holds after it. -/
theorem forLoop_invariant {α : Type} {body : Nat → α → α} {P : Nat → α → Prop} {n : Nat} {x : α} (h0 : P 0 x)
    (hs : ∀ k < n, ∀ y, P k y → P (k + 1) (body k y)) : P n (forLoop body n x) := by
  induction n with
  | zero => exact h0
  | succ n ih => exact hs n (by omega) _ (ih (fun k hk => hs k (by omega)))

/-- What two loops agree on before, and keep agreeing on at every iteration, they agree on after. -/
theorem forLoop_related {α β : Type} {f : Nat → α → α} {g : Nat → β → β} {P : Nat → α → β → Prop} {n : Nat} {x : α} {y : β}
    (h0 : P 0 x y) (hs : ∀ k < n, ∀ a b, P k a b → P (k + 1) (f k a) (g k b)) : P n (forLoop f n x) (forLoop g n y) := by
  induction n with
  | zero => exact h0
  | succ n ih => exact hs n (by omega) _ _ (ih (fun k hk => hs k (by omega)))

/-- Loops whose bodies agree on the iterations that run give the same result. -/
theorem forLoop_congr {α : Type} {f g : Nat → α → α} {n : Nat} (x : α) (h : ∀ k < n, ∀ y, f k y = g k y) :
    forLoop f n x = forLoop g n x :=
  forLoop_related (P := fun _ a b => a = b) rfl (fun k hk a b hab => by rw [hab]; exact h k hk b)

end Sys2Proof.Machine
end

