-- ==== Sys2Proof/Laws/Memory.lean ====
section
/-! SUPPORT. The laws of data memory: the canonical form is kept, a read after a write, writes leave every other byte alone, and equal
bytes mean equal memories. -/

namespace Sys2Proof.Machine

/-! ### One byte -/

@[simp] theorem memValid_iff (a : Nat) : Config.memValid a = true ↔ a < 4294967296 := by
  simp [Config.memValid]

theorem cellsAbove_cons (lo : Option Nat) (x : Nat) (v : Byte) (rest : List Host.Cell) :
    cellsAbove lo ((x, v) :: rest) = true ↔
      (∀ l, lo = some l → l < x) ∧ x < 4294967296 ∧ v ≠ Config.unlistedByte ∧ cellsAbove (some x) rest = true := by
  cases lo <;> simp [cellsAbove, and_assoc]

/-- A lower bound below the first address may be lowered further or dropped. -/
theorem cellsAbove_weaken {lo lo' : Option Nat} {l : List Host.Cell} (h : cellsAbove lo l = true)
    (hle : ∀ x, lo' = some x → ∃ y, lo = some y ∧ x ≤ y) : cellsAbove lo' l = true := by
  cases l with
  | nil => rfl
  | cons c rest =>
    obtain ⟨x, v⟩ := c
    rw [cellsAbove_cons] at h ⊢
    refine ⟨fun k hk => ?_, h.2⟩
    obtain ⟨y, hy, hxy⟩ := hle k hk
    have := h.1 y hy
    omega

/-- No byte is listed at or below the bound. -/
theorem readCell_below {lo : Option Nat} {l : List Host.Cell} (h : cellsAbove lo l = true) {a b : Nat} (hb : lo = some b)
    (ha : a ≤ b) : readCell l a = Config.unlistedByte := by
  cases l with
  | nil => rfl
  | cons c rest =>
    obtain ⟨x, v⟩ := c
    have := ((cellsAbove_cons ..).1 h).1 b hb
    simp [readCell, show a < x by omega]

theorem readCell_writeCell_same {lo : Option Nat} {l : List Host.Cell} (h : cellsAbove lo l = true) (a : Nat) (b : Byte) :
    readCell (writeCell l a b) a = b := by
  induction l generalizing lo with
  | nil => by_cases hb : b = Config.unlistedByte <;> simp [writeCell, readCell, hb]
  | cons c rest ih =>
    obtain ⟨x, v⟩ := c
    obtain ⟨-, -, -, hr⟩ := (cellsAbove_cons ..).1 h
    rcases Nat.lt_trichotomy a x with hlt | heq | hgt
    · by_cases hb : b = Config.unlistedByte <;> simp [writeCell, readCell, hb, hlt]
    · subst heq
      by_cases hb : b = Config.unlistedByte
      · simpa [writeCell, hb] using readCell_below hr rfl (Nat.le_refl a)
      · simp [writeCell, readCell, hb]
    · simp [writeCell, readCell, show ¬ a < x by omega, show a ≠ x by omega, ih hr]

theorem readCell_writeCell_other {lo : Option Nat} {l : List Host.Cell} (h : cellsAbove lo l = true) {a c : Nat} (b : Byte)
    (hne : c ≠ a) : readCell (writeCell l a b) c = readCell l c := by
  induction l generalizing lo with
  | nil => by_cases hb : b = Config.unlistedByte <;> simp [writeCell, readCell, hb, hne]
  | cons cell rest ih =>
    obtain ⟨x, v⟩ := cell
    obtain ⟨-, -, -, hr⟩ := (cellsAbove_cons ..).1 h
    rcases Nat.lt_trichotomy a x with hlt | heq | hgt
    · by_cases hb : b = Config.unlistedByte
      · simp [writeCell, hb, hlt]
      · by_cases hca : c < a
        · simp [writeCell, readCell, hb, hlt, hca, show c < x by omega]
        · simp [writeCell, readCell, hb, hlt, hca, hne]
    · subst heq
      by_cases hb : b = Config.unlistedByte
      · by_cases hca : c < a
        · simpa [writeCell, readCell, hb, hca] using readCell_below hr rfl (by omega)
        · simp [writeCell, readCell, hb, hca, hne]
      · simp [writeCell, readCell, hb, hne]
    · simp [writeCell, readCell, show ¬ a < x by omega, show a ≠ x by omega, ih hr]

theorem cellsAbove_writeCell {lo : Option Nat} {l : List Host.Cell} (h : cellsAbove lo l = true) {a : Nat} (b : Byte)
    (hlo : ∀ k, lo = some k → k < a) (ha : a < 4294967296) : cellsAbove lo (writeCell l a b) = true := by
  induction l generalizing lo with
  | nil =>
    by_cases hb : b = Config.unlistedByte
    · simp [writeCell, hb, cellsAbove]
    · simp only [writeCell, hb, if_false]
      exact (cellsAbove_cons ..).2 ⟨hlo, ha, hb, rfl⟩
  | cons c rest ih =>
    obtain ⟨x, v⟩ := c
    obtain ⟨h1, h2, h3, hr⟩ := (cellsAbove_cons ..).1 h
    rcases Nat.lt_trichotomy a x with hlt | heq | hgt
    · by_cases hb : b = Config.unlistedByte
      · simpa [writeCell, hb, hlt] using h
      · simp only [writeCell, hb, hlt, if_true, if_false]
        refine (cellsAbove_cons ..).2 ⟨hlo, ha, hb, (cellsAbove_cons ..).2 ⟨?_, h2, h3, hr⟩⟩
        rintro k ⟨rfl⟩
        exact hlt
    · subst heq
      by_cases hb : b = Config.unlistedByte
      · simp only [writeCell, hb, Nat.lt_irrefl, if_true, if_false]
        exact cellsAbove_weaken hr (fun k hk => ⟨a, rfl, Nat.le_of_lt (h1 k hk)⟩)
      · simp only [writeCell, hb, Nat.lt_irrefl, if_true, if_false]
        exact (cellsAbove_cons ..).2 ⟨h1, h2, hb, hr⟩
    · simp only [writeCell, show ¬ a < x by omega, show a ≠ x by omega, if_false]
      refine (cellsAbove_cons ..).2 ⟨h1, h2, h3, ih hr ?_⟩
      rintro k ⟨rfl⟩
      exact hgt

/-- Writing a byte keeps the canonical form. -/
theorem Memory.writeByte_wf {m : Memory} (h : m.wf = true) (a : Nat) (b : Byte) : (m.writeByte a b).wf = true := by
  unfold Memory.writeByte
  by_cases ha : Config.memValid a = true
  · simp only [ha, if_true]
    exact cellsAbove_writeCell h b (fun k hk => by cases hk) ((memValid_iff a).1 ha)
  · simpa [ha] using h

/-- What one byte reads as after one byte is written. -/
theorem Memory.readByte_writeByte {m : Memory} (h : m.wf = true) {a : Nat} (ha : a < 4294967296) (b : Byte) (c : Nat) :
    (m.writeByte a b).readByte c = if c = a then b else m.readByte c := by
  have hv : Config.memValid a = true := (memValid_iff a).2 ha
  by_cases hc : c = a
  · subst hc
    simp only [Memory.writeByte, Memory.readByte, hv, if_true]
    exact readCell_writeCell_same h c b
  · simp only [Memory.writeByte, Memory.readByte, hv, hc, if_true, if_false]
    exact readCell_writeCell_other h b hc

/-- A list in canonical form is determined by what it reads as. -/
theorem cellsAbove_ext {lo lo' : Option Nat} {l l' : List Host.Cell} (h : cellsAbove lo l = true) (h' : cellsAbove lo' l' = true)
    (hr : ∀ a, readCell l a = readCell l' a) : l = l' := by
  induction l generalizing lo lo' l' with
  | nil =>
    cases l' with
    | nil => rfl
    | cons c rest =>
      obtain ⟨x, v⟩ := c
      obtain ⟨-, -, h3, -⟩ := (cellsAbove_cons ..).1 h'
      exact absurd (by simpa [readCell] using (hr x).symm) h3
  | cons c rest ih =>
    obtain ⟨x, v⟩ := c
    obtain ⟨-, -, h3, hrest⟩ := (cellsAbove_cons ..).1 h
    cases l' with
    | nil => exact absurd (by simpa [readCell] using hr x) h3
    | cons c' rest' =>
      obtain ⟨y, w⟩ := c'
      obtain ⟨-, -, h3', hrest'⟩ := (cellsAbove_cons ..).1 h'
      have hxy : x = y := by
        rcases Nat.lt_trichotomy x y with hlt | heq | hgt
        · exact absurd (by simpa [readCell, hlt] using hr x) h3
        · exact heq
        · exact absurd (by simpa [readCell, hgt] using (hr y).symm) h3'
      subst hxy
      have hvw : v = w := by simpa [readCell] using hr x
      subst hvw
      rw [ih hrest hrest']
      intro a
      rcases Nat.lt_trichotomy a x with hlt | heq | hgt
      · rw [readCell_below hrest rfl (by omega), readCell_below hrest' rfl (by omega)]
      · rw [readCell_below hrest rfl (by omega), readCell_below hrest' rfl (by omega)]
      · simpa [readCell, show ¬ a < x by omega, show a ≠ x by omega] using hr a

/-- Two memories in canonical form that read the same everywhere are the same data. -/
theorem Memory.ext_readByte {m m' : Memory} (h : m.wf = true) (h' : m'.wf = true) (hr : ∀ a, m.readByte a = m'.readByte a) : m = m' := by
  cases m
  cases m'
  simpa using cellsAbove_ext h h' hr

/-! ### Elements -/

/-- Writing an element keeps the canonical form. -/
theorem memWrite_wf {m : Memory} (h : m.wf = true) (addr n v : Nat) : (memWrite m addr n v).wf = true := by
  induction n with
  | zero => exact h
  | succ n ih => exact Memory.writeByte_wf ih _ _

/-- What one byte reads as after an element is written. -/
theorem readByte_memWrite {m : Memory} (h : m.wf = true) {addr n : Nat} (hn : addr + n ≤ 4294967296) (v c : Nat) :
    (memWrite m addr n v).readByte c =
      if addr ≤ c ∧ c < addr + n then BitVec.ofNat 8 (v / 2 ^ (8 * (c - addr)) % 256) else m.readByte c := by
  induction n with
  | zero => simp [memWrite, show ¬ (addr ≤ c ∧ c < addr) by omega]
  | succ n ih =>
    rw [memWrite, Memory.readByte_writeByte (memWrite_wf h _ _ _) (by omega), ih (by omega)]
    by_cases hc : c = addr + n
    · subst hc
      simp
    · by_cases hin : addr ≤ c ∧ c < addr + n
      · simp [hc, hin, show c < addr + (n + 1) by omega]
      · simp [hc, hin, show ¬ (addr ≤ c ∧ c < addr + (n + 1)) by omega]

/-- A byte outside the element is left alone. -/
theorem readByte_memWrite_outside {m : Memory} (h : m.wf = true) {addr n : Nat} (hn : addr + n ≤ 4294967296) (v : Nat) {c : Nat}
    (hc : ¬ (addr ≤ c ∧ c < addr + n)) : (memWrite m addr n v).readByte c = m.readByte c := by
  simp [readByte_memWrite h hn, hc]

/-- An element read depends on its own bytes only. -/
theorem memRead_congr {m m' : Memory} {addr n : Nat} (h : ∀ a, addr ≤ a → a < addr + n → m.readByte a = m'.readByte a) :
    memRead m addr n = memRead m' addr n := by
  induction n with
  | zero => rfl
  | succ n ih =>
    rw [memRead, memRead, ih (fun a h1 h2 => h a h1 (by omega)), h (addr + n) (by omega) (by omega)]

/-- An element is below 2^(8n). -/
theorem memRead_lt (m : Memory) (addr n : Nat) : memRead m addr n < 2 ^ (8 * n) := by
  induction n with
  | zero => simp [memRead]
  | succ n ih =>
    have hb := (m.readByte (addr + n)).isLt
    have hp : (2 : Nat) ^ (8 * (n + 1)) = 256 * 2 ^ (8 * n) := by rw [Nat.mul_succ, pow_add]; ring
    have : (m.readByte (addr + n)).toNat * 2 ^ (8 * n) ≤ 255 * 2 ^ (8 * n) := Nat.mul_le_mul_right _ (by omega)
    rw [memRead, hp]
    omega

/-- Reading the first `k` bytes of an element of `n` bytes just written. -/
theorem memRead_memWrite_prefix {m : Memory} (h : m.wf = true) {addr n k : Nat} (hk : k ≤ n) (hn : addr + n ≤ 4294967296) (v : Nat) :
    memRead (memWrite m addr n v) addr k = v % 2 ^ (8 * k) := by
  induction k with
  | zero => simp [memRead, Nat.mod_one]
  | succ k ih =>
    have hp : (2 : Nat) ^ (8 * (k + 1)) = 2 ^ (8 * k) * 256 := by rw [Nat.mul_succ, pow_add]; rfl
    rw [memRead, ih (by omega), readByte_memWrite h hn]
    simp only [show addr ≤ addr + k ∧ addr + k < addr + n from ⟨by omega, by omega⟩, and_self, if_true, BitVec.toNat_ofNat,
      Nat.add_sub_cancel_left]
    rw [hp, Nat.mod_mul, Nat.mod_mod_of_dvd _ (by norm_num : 2 ^ 8 ∣ 256), Nat.mul_comm (2 ^ (8 * k)),
      show (2 : Nat) ^ 8 = 256 from rfl]

/-- An element just written reads back, modulo its width. -/
theorem memRead_memWrite {m : Memory} (h : m.wf = true) {addr n : Nat} (hn : addr + n ≤ 4294967296) (v : Nat) :
    memRead (memWrite m addr n v) addr n = v % 2 ^ (8 * n) :=
  memRead_memWrite_prefix h (Nat.le_refl n) hn v

/-- An element disjoint from the one written reads as before. -/
theorem memRead_memWrite_disjoint {m : Memory} (h : m.wf = true) {addr n : Nat} (hn : addr + n ≤ 4294967296) (v : Nat) {a k : Nat}
    (hd : a + k ≤ addr ∨ addr + n ≤ a) : memRead (memWrite m addr n v) a k = memRead m a k :=
  memRead_congr (fun c h1 h2 => readByte_memWrite_outside h hn v (by omega))

end Sys2Proof.Machine
end

