-- ==== Sys2Proof/Laws/Operands.lean ====
section
/-! SUPPORT. The laws of the typed memory accesses: what an element written reads back as, that it keeps the canonical form and every other
byte, and that a typed read depends on its own bytes only. -/

namespace Sys2Proof.Machine

theorem writeIQ_wf {m : Memory} (h : m.wf = true) (a : Nat) (i q : Int) : (writeIQ m a i q).wf = true := memWrite_wf h _ _ _

theorem writeAudio_wf {m : Memory} (h : m.wf = true) (a : Nat) (v : Int) : (writeAudio m a v).wf = true := memWrite_wf h _ _ _

theorem readByte_writeIQ_outside {m : Memory} (h : m.wf = true) {a : Nat} (ha : a + 4 ≤ 4294967296) (i q : Int) {c : Nat}
    (hc : ¬ (a ≤ c ∧ c < a + 4)) : (writeIQ m a i q).readByte c = m.readByte c := readByte_memWrite_outside h ha _ hc

theorem readByte_writeAudio_outside {m : Memory} (h : m.wf = true) {a : Nat} (ha : a + 2 ≤ 4294967296) (v : Int) {c : Nat}
    (hc : ¬ (a ≤ c ∧ c < a + 2)) : (writeAudio m a v).readByte c = m.readByte c := readByte_memWrite_outside h ha _ hc

/-- The bytes an IQSample is stored as depend on the values alone, not on the memory written to. -/
theorem readByte_writeIQ_inside {m m' : Memory} (h : m.wf = true) (h' : m'.wf = true) {a : Nat} (ha : a + 4 ≤ 4294967296) (i q : Int)
    {c : Nat} (hc : a ≤ c ∧ c < a + 4) : (writeIQ m a i q).readByte c = (writeIQ m' a i q).readByte c := by
  simp only [writeIQ, readByte_memWrite h ha, readByte_memWrite h' ha, hc, and_self, if_true]

theorem readByte_writeAudio_inside {m m' : Memory} (h : m.wf = true) (h' : m'.wf = true) {a : Nat} (ha : a + 2 ≤ 4294967296) (v : Int)
    {c : Nat} (hc : a ≤ c ∧ c < a + 2) : (writeAudio m a v).readByte c = (writeAudio m' a v).readByte c := by
  simp only [writeAudio, readByte_memWrite h ha, readByte_memWrite h' ha, hc, and_self, if_true]

/-- IAt reads back the I that WriteIQ stored, to 16 bits (R64). -/
theorem iAt_writeIQ {m : Memory} (h : m.wf = true) {a : Nat} (ha : a + 4 ≤ 4294967296) (i q : Int) :
    iAt (writeIQ m a i q) a = wrap 16 i := by
  have hu := umod_lt 16 i
  rw [iAt, writeIQ, memRead_memWrite_prefix h (by omega) ha, ← sext_umod 16 i]
  congr 1
  omega

/-- QAt reads back the Q that WriteIQ stored, to 16 bits (R64). -/
theorem qAt_writeIQ {m : Memory} (h : m.wf = true) {a : Nat} (ha : a + 4 ≤ 4294967296) (i q : Int) :
    qAt (writeIQ m a i q) a = wrap 16 q := by
  have hi := umod_lt 16 i
  have hq := umod_lt 16 q
  have e1 : (a + 3) - a = 3 := by omega
  rw [qAt, writeIQ, ← sext_umod 16 q]
  congr 1
  simp only [memRead, readByte_memWrite h ha, Nat.add_assoc, Nat.add_sub_cancel_left]
  simp only [show a ≤ a + (2 + 0) ∧ a + (2 + 0) < a + 4 from ⟨by omega, by omega⟩,
    show a ≤ a + (2 + (0 + 1)) ∧ a + (2 + (0 + 1)) < a + 4 from ⟨by omega, by omega⟩, and_self, if_true, BitVec.toNat_ofNat]
  norm_num
  omega

/-- AudioAt reads back what WriteAudio stored, to 16 bits. -/
theorem audioAt_writeAudio {m : Memory} (h : m.wf = true) {a : Nat} (ha : a + 2 ≤ 4294967296) (v : Int) :
    audioAt (writeAudio m a v) a = wrap 16 v := by
  have hu := umod_lt 16 v
  rw [audioAt, writeAudio, memRead_memWrite h ha, ← sext_umod 16 v]
  congr 1
  omega

/-! ### A typed read in terms of its bytes -/

/-- A two-byte element is its low byte and its high byte (R62, R64). -/
theorem memRead_two (m : Memory) (a : Nat) : memRead m a 2 = (m.readByte a).toNat + 256 * (m.readByte (a + 1)).toNat := by
  simp only [memRead, Nat.add_zero]
  omega

/-- The two's complement reading of a 16-bit pattern (R12). -/
theorem sext_sixteen {u : Nat} (hu : u < 65536) : sext 16 u = if (u : Int) < 32768 then (u : Int) else (u : Int) - 65536 := by
  simp only [sext, wrap]
  norm_num
  split <;> split <;> omega

/-! ### A typed read depends on its own bytes only -/

theorem rawAt_congr {m m' : Memory} {a : Nat} (h : ∀ c, a ≤ c → c < a + 2 → m.readByte c = m'.readByte c) : rawAt m a = rawAt m' a := by
  rw [rawAt, rawAt, memRead_congr h]

theorem coefAt_congr {m m' : Memory} {a : Nat} (h : ∀ c, a ≤ c → c < a + 2 → m.readByte c = m'.readByte c) :
    coefAt m a = coefAt m' a := by
  rw [coefAt, coefAt, memRead_congr h]

theorem iAt_congr {m m' : Memory} {a : Nat} (h : ∀ c, a ≤ c → c < a + 2 → m.readByte c = m'.readByte c) : iAt m a = iAt m' a := by
  rw [iAt, iAt, memRead_congr h]

theorem qAt_congr {m m' : Memory} {a : Nat} (h : ∀ c, a + 2 ≤ c → c < a + 4 → m.readByte c = m'.readByte c) : qAt m a = qAt m' a := by
  rw [qAt, qAt, memRead_congr h]

theorem audioAt_congr {m m' : Memory} {a : Nat} (h : ∀ c, a ≤ c → c < a + 2 → m.readByte c = m'.readByte c) :
    audioAt m a = audioAt m' a := by
  rw [audioAt, audioAt, memRead_congr h]

/-! ### Ranges of the values read -/

theorem iAt_range (m : Memory) (a : Nat) : -32768 ≤ iAt m a ∧ iAt m a ≤ 32767 := by
  have := sext_range (n := 16) (by omega) (memRead m a 2)
  norm_num at this
  simp only [iAt, Config.iqW]
  omega

theorem qAt_range (m : Memory) (a : Nat) : -32768 ≤ qAt m a ∧ qAt m a ≤ 32767 := by
  have := sext_range (n := 16) (by omega) (memRead m (a + 2) 2)
  norm_num at this
  simp only [qAt, Config.iqW]
  omega

theorem coefAt_range (m : Memory) (a : Nat) : -32768 ≤ coefAt m a ∧ coefAt m a ≤ 32767 := by
  have := sext_range (n := 16) (by omega) (memRead m a 2)
  norm_num at this
  simp only [coefAt, Config.coefW]
  omega

theorem rawAt_range (m : Memory) (a : Nat) : 0 ≤ rawAt m a ∧ rawAt m a ≤ 65535 := by
  have := memRead_lt m a 2
  simp only [rawAt, zext]
  omega

end Sys2Proof.Machine
end

