-- ==== Sys2Proof/Laws/Ddc.lean ====
section
/-! SUPPORT. What DDC.PROC does to its unit and to memory, once: the cursor and the write index after k outputs (spec/40_ddc.md R115, R119), the
closed form of an accumulated pair (R117), the canonical form kept, and the bytes left alone (20_memory.md R81). -/

namespace Sys2Proof.Machine

/-- The DDC registers after `k` outputs, from the registers `d` before the command (R115, R119). -/
def ddcAfter (d : Ddc) (k : Nat) : Ddc :=
  { d with
    lutpos := BitVec.ofNat 32 ((d.lutpos.toNat + k * d.ratio.toNat) % d.period.toNat)
    wpos := if d.cap.toNat > 0 then BitVec.ofNat 32 ((d.wpos.toNat + k) % d.cap.toNat) else d.wpos }

theorem mod_toNat_lt (a : Nat) {p : Word} (hp : 0 < p.toNat) : (BitVec.ofNat 32 (a % p.toNat)).toNat = a % p.toNat := by
  rw [BitVec.toNat_ofNat, Nat.mod_eq_of_lt]
  exact Nat.lt_trans (Nat.mod_lt _ hp) p.isLt

theorem ddcAfter_lutpos {d : Ddc} (h : d.Legal) (k : Nat) :
    (ddcAfter d k).lutpos.toNat = (d.lutpos.toNat + k * d.ratio.toNat) % d.period.toNat :=
  mod_toNat_lt _ h.2.2.1

theorem ddcAfter_wpos {d : Ddc} (hc : 0 < d.cap.toNat) (k : Nat) :
    (ddcAfter d k).wpos.toNat = (d.wpos.toNat + k) % d.cap.toNat := by
  simp only [ddcAfter, gt_iff_lt, hc, if_true]
  exact mod_toNat_lt _ hc

theorem ddcAfter_zero {d : Ddc} (h : d.Legal) : ddcAfter d 0 = d := by
  obtain ⟨-, -, -, -, -, -, -, hl, hw⟩ := h
  unfold ddcAfter
  by_cases hc : 0 < d.cap.toNat
  · simp [hc, Nat.mod_eq_of_lt hl, Nat.mod_eq_of_lt (hw hc)]
  · simp [hc, Nat.mod_eq_of_lt hl]

theorem ddcAfter_succ {d : Ddc} (h : d.Legal) (k : Nat) : ddcNextSlot (ddcAdvance (ddcAfter d k)) = ddcAfter d (k + 1) := by
  have hp := h.2.2.1
  have h1 : (BitVec.ofNat 32 ((d.lutpos.toNat + k * d.ratio.toNat) % d.period.toNat)).toNat
      = (d.lutpos.toNat + k * d.ratio.toNat) % d.period.toNat := mod_toNat_lt _ hp
  have h2 : ((d.lutpos.toNat + k * d.ratio.toNat) % d.period.toNat + d.ratio.toNat) % d.period.toNat
      = (d.lutpos.toNat + (k + 1) * d.ratio.toNat) % d.period.toNat := by
    rw [Nat.mod_add_mod, Nat.add_assoc, Nat.succ_mul]
  by_cases hc : 0 < d.cap.toNat
  · have h3 : (BitVec.ofNat 32 ((d.wpos.toNat + k) % d.cap.toNat)).toNat = (d.wpos.toNat + k) % d.cap.toNat := mod_toNat_lt _ hc
    have h4 : ((d.wpos.toNat + k) % d.cap.toNat + 1) % d.cap.toNat = (d.wpos.toNat + (k + 1)) % d.cap.toNat := by
      rw [Nat.mod_add_mod, Nat.add_assoc]
    simp only [ddcNextSlot, ddcAdvance, ddcAfter, gt_iff_lt, hc, if_true, h1, h2, h3, h4]
  · simp only [ddcNextSlot, ddcAdvance, ddcAfter, gt_iff_lt, hc, if_false, h1, h2]

/-- The unit after `k` outputs does not depend on memory (R115, R119). -/
theorem ddcLoop_unit {d : Ddc} (h : d.Legal) (first dst k : Nat) (m : Memory) :
    (forLoop (ddcOutput first dst) k (d, m)).1 = ddcAfter d k := by
  induction k with
  | zero => exact (ddcAfter_zero h).symm
  | succ k ih =>
    rw [forLoop_succ, ← ddcAfter_succ h, ← ih]
    rfl

/-- A legal unit stays legal while it processes (R29, R30). -/
theorem ddcAfter_legal {d : Ddc} (h : d.Legal) (k : Nat) : (ddcAfter d k).Legal := by
  have hl := ddcAfter_lutpos h k
  obtain ⟨h1, h2, h3, h4, h5, h6, h7, h8, h9⟩ := h
  refine ⟨h1, h2, h3, h4, h5, h6, fun hc => ⟨(h7 hc).1, ?_⟩, ?_, fun hc => ?_⟩
  · have : ¬ 0 < d.cap.toNat := Nat.not_lt.2 (Nat.le_of_eq hc)
    simp only [ddcAfter, gt_iff_lt, this, if_false]
    exact (h7 hc).2
  · rw [hl]
    exact Nat.mod_lt _ h3
  · rw [ddcAfter_wpos (d := d) hc]
    exact Nat.mod_lt _ hc

/-- The address output `k` goes to, in terms of the registers before the command (R119). -/
theorem ddcOutAddr_after {d : Ddc} (dst k : Nat) : ddcOutAddr (ddcAfter d k) dst k = ddcSlotAddr d dst k := by
  by_cases hc : 0 < d.cap.toNat
  · have hw := ddcAfter_wpos hc k
    unfold ddcOutAddr ddcSlotAddr
    rw [hw]
    simp [ddcAfter, hc]
  · simp [ddcOutAddr, ddcSlotAddr, ddcAfter, hc]

/-- Memory after `k + 1` outputs: the memory after `k` with output `k` written at its slot. -/
theorem ddcLoop_mem_succ {d : Ddc} (h : d.Legal) (first dst k : Nat) (m : Memory) :
    (forLoop (ddcOutput first dst) (k + 1) (d, m)).2 =
      writeIQ (forLoop (ddcOutput first dst) k (d, m)).2 (ddcSlotAddr d dst k)
        (scaleDown (ddcGroup (forLoop (ddcOutput first dst) k (d, m)).2 (ddcAfter d k) (first + 2 * (k * d.ratio.toNat))).1 d.shift.toNat)
        (scaleDown (ddcGroup (forLoop (ddcOutput first dst) k (d, m)).2 (ddcAfter d k) (first + 2 * (k * d.ratio.toNat))).2 d.shift.toNat) := by
  have hu := ddcLoop_unit h first dst k m
  rw [forLoop_succ, ddcOutput, ← ddcOutAddr_after, hu]
  rfl

/-- The outputs of DDC.PROC all lie below 2^32 (R67). -/
theorem ddcSlotAddr_fits {d : Ddc} (h : d.Legal) {dst n : Nat} (hd : d.cap.toNat = 0 → 0 < n → dst + 4 * n ≤ 4294967296) {k : Nat}
    (hk : k < n) : ddcSlotAddr d dst k + 4 ≤ 4294967296 := by
  obtain ⟨-, -, -, -, -, h6, -, -, -⟩ := h
  by_cases hc : 0 < d.cap.toNat
  · have := (h6 hc).2
    have hm := Nat.mod_lt (d.wpos.toNat + k) hc
    simp only [Config.memTop] at this
    simp only [ddcSlotAddr, gt_iff_lt, hc, if_true]
    omega
  · have := hd (by omega) (by omega)
    simp only [ddcSlotAddr, gt_iff_lt, hc, if_false]
    omega

/-- DDC.PROC keeps memory canonical. -/
theorem ddcLoop_wf (first dst k : Nat) (d : Ddc) {m : Memory} (hm : m.wf = true) :
    (forLoop (ddcOutput first dst) k (d, m)).2.wf = true :=
  forLoop_invariant (P := fun _ (x : Ddc × Memory) => x.2.wf = true) hm (fun _ _ _ h => writeIQ_wf h _ _ _)

/-- A byte in no output slot is left alone (R79, R81). -/
theorem ddcLoop_outside {d : Ddc} (h : d.Legal) {first dst n : Nat} {m : Memory} (hm : m.wf = true)
    (hd : d.cap.toNat = 0 → 0 < n → dst + 4 * n ≤ 4294967296) {a : Nat} (ha : ∀ k, k < n → ¬ InSpan a (ddcSlotAddr d dst k) 4)
    {k : Nat} (hk : k ≤ n) : (forLoop (ddcOutput first dst) k (d, m)).2.readByte a = m.readByte a := by
  induction k with
  | zero => rfl
  | succ k ih =>
    rw [ddcLoop_mem_succ h, readByte_writeIQ_outside (ddcLoop_wf _ _ _ _ hm) (ddcSlotAddr_fits h hd (by omega)) _ _ (ha k (by omega)),
      ih (by omega)]

/-- accI and accQ are the exact sums of products, wrapped once (R117). -/
theorem ddcGroup_eq (m : Memory) (d : Ddc) (group : Nat) :
    ddcGroup m d group =
      (wrap 32 (∑ j ∈ Finset.range d.ratio.toNat, rawAt m (group + 2 * j) * coefAt m (d.ti.toNat + 2 * ddcIndex d j)),
        wrap 32 (∑ j ∈ Finset.range d.ratio.toNat, rawAt m (group + 2 * j) * coefAt m (d.tq.toNat + 2 * ddcIndex d j))) := by
  unfold ddcGroup
  induction d.ratio.toNat with
  | zero => rfl
  | succ r ih =>
    rw [forLoop_succ, ih, ddcMac, Finset.sum_range_succ, Finset.sum_range_succ]
    simp only [Config.accW, wrap_add_wrap]

/-- A group's sums depend on its raw samples and on both tables only (R81). -/
theorem ddcGroup_congr {m m' : Memory} {d : Ddc} (hp : 0 < d.period.toNat) {group : Nat}
    (hx : ∀ a, InSpan a group (2 * d.ratio.toNat) → m.readByte a = m'.readByte a)
    (hi : ∀ a, InSpan a d.ti.toNat (2 * d.period.toNat) → m.readByte a = m'.readByte a)
    (hq : ∀ a, InSpan a d.tq.toNat (2 * d.period.toNat) → m.readByte a = m'.readByte a) : ddcGroup m d group = ddcGroup m' d group := by
  have hidx : ∀ j, ddcIndex d j < d.period.toNat := fun j => Nat.mod_lt _ hp
  refine forLoop_congr _ (fun j hj acc => ?_)
  have h1 : rawAt m (group + 2 * j) = rawAt m' (group + 2 * j) := rawAt_congr (fun c h1 h2 => hx c ⟨by omega, by omega⟩)
  have h2 : coefAt m (d.ti.toNat + 2 * ddcIndex d j) = coefAt m' (d.ti.toNat + 2 * ddcIndex d j) :=
    coefAt_congr (fun c h1 h2 => hi c ⟨by omega, by have := hidx j; omega⟩)
  have h3 : coefAt m (d.tq.toNat + 2 * ddcIndex d j) = coefAt m' (d.tq.toNat + 2 * ddcIndex d j) :=
    coefAt_congr (fun c h1 h2 => hq c ⟨by omega, by have := hidx j; omega⟩)
  simp only [ddcMac, h1, h2, h3]

/-- A loop of outputs that starts at output `k` is the loop of a command whose operands start there (R115). -/
theorem ddcLoop_shift (d : Ddc) (m : Memory) (first k n : Nat) {dst dst' : Nat} (hd : d.cap.toNat = 0 → dst' = dst + 4 * k) :
    forLoop (fun j => ddcOutput first dst (k + j)) n (d, m) =
      forLoop (ddcOutput (first + 2 * (k * d.ratio.toNat)) dst') n (d, m) := by
  refine (forLoop_related (P := fun _ (a b : Ddc × Memory) => a = b ∧ a.1.ratio = d.ratio ∧ a.1.cap = d.cap) ⟨rfl, rfl, rfl⟩ ?_).1
  rintro j - ⟨a, ma⟩ b ⟨rfl, hr, hc⟩
  have hr : a.ratio = d.ratio := hr
  have hc : a.cap = d.cap := hc
  refine ⟨?_, ?_, ?_⟩
  · have e1 : first + 2 * ((k + j) * a.ratio.toNat) = first + 2 * (k * d.ratio.toNat) + 2 * (j * a.ratio.toNat) := by
      rw [hr]
      ring
    have e2 : ddcOutAddr a dst (k + j) = ddcOutAddr a dst' j := by
      unfold ddcOutAddr
      split
      · rfl
      · rw [hd (by rw [← hc]; omega)]
        ring
    simp only [ddcOutput, e1, e2]
  all_goals
    simp only [ddcOutput, ddcNextSlot]
    split <;> assumption

end Sys2Proof.Machine
end

