-- ==== Sys2Proof/Laws/Aft.lean ====
section
/-! SUPPORT. What AFT.MIX does to its unit and to memory, once: the cursor after k samples (spec/41_aft.md R136), the canonical form kept, the
bytes left alone (20_memory.md R81). -/

namespace Sys2Proof.Machine

/-- The AFT registers after `k` samples (R136). -/
def aftAfter (f : Aft) (k : Nat) : Aft :=
  { f with lutpos := BitVec.ofNat 32 ((f.lutpos.toNat + k) % f.period.toNat) }

theorem aftAfter_lutpos {f : Aft} (h : f.Legal) (k : Nat) :
    (aftAfter f k).lutpos.toNat = (f.lutpos.toNat + k) % f.period.toNat :=
  mod_toNat_lt _ h.2.2.1

theorem aftAfter_zero {f : Aft} (h : f.Legal) : aftAfter f 0 = f := by
  simp [aftAfter, Nat.mod_eq_of_lt h.2.2.2.2.2]

theorem aftAfter_succ {f : Aft} (h : f.Legal) (k : Nat) : aftAdvance (aftAfter f k) = aftAfter f (k + 1) := by
  have h1 : (BitVec.ofNat 32 ((f.lutpos.toNat + k) % f.period.toNat)).toNat = (f.lutpos.toNat + k) % f.period.toNat :=
    mod_toNat_lt _ h.2.2.1
  simp only [aftAdvance, aftAfter, h1, Nat.mod_add_mod, Nat.add_assoc]

/-- The unit after `k` samples does not depend on memory (R136). -/
theorem aftLoop_unit {f : Aft} (h : f.Legal) (first dst k : Nat) (m : Memory) :
    (forLoop (aftOutput first dst) k (f, m)).1 = aftAfter f k := by
  induction k with
  | zero => exact (aftAfter_zero h).symm
  | succ k ih =>
    rw [forLoop_succ, ← aftAfter_succ h, ← ih]
    rfl

/-- A legal unit stays legal while it processes (R32). -/
theorem aftAfter_legal {f : Aft} (h : f.Legal) (k : Nat) : (aftAfter f k).Legal := by
  have hl := aftAfter_lutpos h k
  obtain ⟨h1, h2, h3, h4, h5, -⟩ := h
  refine ⟨h1, h2, h3, h4, h5, ?_⟩
  rw [hl]
  exact Nat.mod_lt _ h3

/-- Memory after `k + 1` samples: the memory after `k` with output `k` written. -/
theorem aftLoop_mem_succ {f : Aft} (h : f.Legal) (first dst k : Nat) (m : Memory) :
    (forLoop (aftOutput first dst) (k + 1) (f, m)).2 =
      let m' := (forLoop (aftOutput first dst) k (f, m)).2
      let p := aftProduct m' (aftAfter f k) (iAt m' (first + 4 * k)) (qAt m' (first + 4 * k))
      writeIQ m' (dst + 4 * k) (scaleDown p.1 f.shift.toNat) (scaleDown p.2 f.shift.toNat) := by
  have hu := aftLoop_unit h first dst k m
  rw [forLoop_succ, aftOutput, hu]
  rfl

/-- AFT.MIX keeps memory canonical. -/
theorem aftLoop_wf (first dst k : Nat) (f : Aft) {m : Memory} (hm : m.wf = true) :
    (forLoop (aftOutput first dst) k (f, m)).2.wf = true :=
  forLoop_invariant (P := fun _ (x : Aft × Memory) => x.2.wf = true) hm (fun _ _ _ h => writeIQ_wf h _ _ _)

/-- A byte outside the first `k` outputs is left alone by them (R79, R81). -/
theorem aftLoop_outside {f : Aft} {first dst n : Nat} {m : Memory} (hm : m.wf = true) (hd : 0 < n → dst + 4 * n ≤ 4294967296)
    {k : Nat} (hk : k ≤ n) {a : Nat} (ha : ¬ InSpan a dst (4 * k)) :
    (forLoop (aftOutput first dst) k (f, m)).2.readByte a = m.readByte a := by
  induction k with
  | zero => rfl
  | succ k ih =>
    rw [← ih (by omega) (by omega), forLoop_succ]
    exact readByte_writeIQ_outside (aftLoop_wf _ _ _ _ hm) (by have := hd (by omega); omega) _ _ (by omega)

/-- The product at the cursor depends on the tables the mode uses only (R81). -/
theorem aftProduct_congr {m m' : Memory} {f : Aft} (h : f.Legal) (i q : Int)
    (hc : ∀ a, InSpan a f.tc.toNat (2 * f.period.toNat) → m.readByte a = m'.readByte a)
    (hs : f.mode.toNat = 1 → ∀ a, InSpan a f.ts.toNat (2 * f.period.toNat) → m.readByte a = m'.readByte a) :
    aftProduct m f i q = aftProduct m' f i q := by
  obtain ⟨-, -, -, -, hmode, hl⟩ := h
  have h1 : coefAt m (f.tc.toNat + 2 * f.lutpos.toNat) = coefAt m' (f.tc.toNat + 2 * f.lutpos.toNat) :=
    coefAt_congr (fun c h1 h2 => hc c ⟨by omega, by omega⟩)
  unfold aftProduct
  by_cases h0 : f.mode.toNat = 0
  · simp only [h0, if_true, h1]
  · have h2 : coefAt m (f.ts.toNat + 2 * f.lutpos.toNat) = coefAt m' (f.ts.toNat + 2 * f.lutpos.toNat) :=
      coefAt_congr (fun c h1 h2 => hs (by omega) c ⟨by omega, by omega⟩)
    simp only [h0, if_false, h1, h2]

/-- Output `k + j` is output `j` of a command whose operands start at sample `k` (R136). -/
theorem aftOutput_shift (first dst k j : Nat) : aftOutput first dst (k + j) = aftOutput (first + 4 * k) (dst + 4 * k) j := by
  funext x
  simp only [aftOutput, Nat.mul_add, Nat.add_assoc]

end Sys2Proof.Machine
end

