-- ==== Sys2Proof/Laws/Amd.lean ====
section
/-! SUPPORT. What AMD.DET does to its unit and to memory, once: only the filter state changes (spec/42_amd.md R147), the filter stays in range
(R155), the canonical form kept, the bytes left alone (20_memory.md R81). -/

namespace Sys2Proof.Machine

/-- Of the AMD registers a sample changes the filter state only (R33). -/
theorem amdLoop_config (first dst k : Nat) (u : Amd) (m : Memory) :
    (forLoop (amdOutput first dst) k (u, m)).1 = { u with state := (forLoop (amdOutput first dst) k (u, m)).1.state } :=
  forLoop_invariant (P := fun _ (x : Amd × Memory) => x.1 = { u with state := x.1.state }) rfl
    (fun k _ y hy => by
      simp only [amdOutput]
      generalize amdNextY y.1 _ _ = z
      rw [hy])

/-- AMD.DET keeps memory canonical. -/
theorem amdLoop_wf (first dst k : Nat) (u : Amd) {m : Memory} (hm : m.wf = true) :
    (forLoop (amdOutput first dst) k (u, m)).2.wf = true :=
  forLoop_invariant (P := fun _ (x : Amd × Memory) => x.2.wf = true) hm (fun _ _ _ h => writeAudio_wf h _ _)

/-- A byte outside the first `k` outputs is left alone by them (R79, R81). -/
theorem amdLoop_outside {u : Amd} {first dst n : Nat} {m : Memory} (hm : m.wf = true) (hd : 0 < n → dst + 2 * n ≤ 4294967296)
    {k : Nat} (hk : k ≤ n) {a : Nat} (ha : ¬ InSpan a dst (2 * k)) :
    (forLoop (amdOutput first dst) k (u, m)).2.readByte a = m.readByte a := by
  induction k with
  | zero => rfl
  | succ k ih =>
    rw [← ih (by omega) (by omega), forLoop_succ]
    exact readByte_writeAudio_outside (amdLoop_wf _ _ _ _ hm) (by have := hd (by omega); omega) _ (by omega)

/-- The filter update in the equivalent form of R153: Y' = Y + floor((M − Y) · AL / 65536). -/
theorem amdFilter_eq (al : Nat) (y mag : Int) : amdFilter al y mag = y + (mag * 65536 - y) * al / 65536 := by
  have h : y * (65536 - (al : Int)) + mag * 65536 * al = (mag * 65536 - y) * al + y * 65536 := by ring
  simp only [amdFilter, asr, Config.fracW, Config.fracOne]
  norm_num only
  rw [h, Int.add_mul_ediv_right _ _ (by norm_num), Int.add_comm]

/-- The filter state lies between the old state and the target, so it stays in 32 bits (R155). -/
theorem amdFilter_range {al : Nat} {y mag : Int} (hal : al ≤ 65536) (hy : -2147483648 ≤ y ∧ y < 2147483648)
    (hm : -32768 ≤ mag ∧ mag ≤ 32767) : -2147483648 ≤ amdFilter al y mag ∧ amdFilter al y mag < 2147483648 := by
  have ha : (0 : Int) ≤ al := by positivity
  have hb : (al : Int) ≤ 65536 := by exact_mod_cast hal
  simp only [amdFilter, asr, Config.fracW, Config.fracOne]
  norm_num only
  constructor
  · apply Int.le_ediv_of_mul_le (by norm_num)
    nlinarith [mul_nonneg (sub_nonneg.2 hb) (sub_nonneg.2 hy.1), mul_nonneg ha (sub_nonneg.2 hm.1)]
  · apply Int.ediv_lt_of_lt_mul (by norm_num)
    have h1 : (2147483648 : Int) - y - 1 ≥ 0 := by omega
    nlinarith [mul_nonneg (sub_nonneg.2 hb) h1, mul_nonneg ha (sub_nonneg.2 hm.2)]

/-- The filter state as the host reads it is the register's two's complement reading (R34). -/
theorem amdY_eq_toInt (u : Amd) : amdY u = u.state.toInt := by
  have h := u.state.isLt
  simp only [amdY, sext, wrap, Config.stateW, BitVec.toInt_eq_toNat_cond]
  norm_num
  split <;> split <;> omega

/-- A coefficient as the polynomial uses it is the register's two's complement reading (R33). -/
theorem sext_toNat_eq_toInt (w : Word) : sext 32 w.toNat = w.toInt := by
  have h := w.isLt
  simp only [sext, wrap, BitVec.toInt_eq_toNat_cond]
  norm_num
  split <;> split <;> omega

theorem ofNat_umod (v : Int) : BitVec.ofNat 32 (umod 32 v) = BitVec.ofInt 32 v := by
  apply BitVec.eq_of_toNat_eq
  rw [BitVec.toNat_ofNat, BitVec.toNat_ofInt, Nat.mod_eq_of_lt (umod_lt 32 v)]
  rfl

/-- S lies in 0 .. 2^31 (R149). -/
theorem amdSquare_range (m : Memory) (a : Nat) : 0 ≤ amdSquare (iAt m a) (qAt m a) ∧ amdSquare (iAt m a) (qAt m a) ≤ 2147483648 := by
  have hi := iAt_range m a
  have hq := qAt_range m a
  unfold amdSquare
  constructor
  · nlinarith [mul_self_nonneg (iAt m a), mul_self_nonneg (qAt m a)]
  · nlinarith [mul_nonneg (show (0 : Int) ≤ 32768 - iAt m a by omega) (show (0 : Int) ≤ iAt m a + 32768 by omega),
      mul_nonneg (show (0 : Int) ≤ 32768 - qAt m a by omega) (show (0 : Int) ≤ qAt m a + 32768 by omega)]

theorem amdMag_range (u : Amd) (sq : Int) : -32768 ≤ amdMag u sq ∧ amdMag u sq ≤ 32767 := by
  have := wrap_range (n := 16) (by omega) (amdPoly u sq)
  norm_num at this
  simp only [amdMag, Config.audioW]
  omega

theorem amdY_range (u : Amd) : -2147483648 ≤ amdY u ∧ amdY u < 2147483648 := by
  have := sext_range (n := 32) (by omega) u.state.toNat
  norm_num at this
  simp only [amdY, Config.stateW]
  omega

/-- The filter state after `k` samples, as a signed integer, over magnitudes `mag 0`, `mag 1`, … (R148, R153). -/
def amdFold (al : Nat) (y : Int) (mag : Nat → Int) (k : Nat) : Int := (List.range k).foldl (fun y j => amdFilter al y (mag j)) y

theorem amdFold_succ (al : Nat) (y : Int) (mag : Nat → Int) (k : Nat) :
    amdFold al y mag (k + 1) = amdFilter al (amdFold al y mag k) (mag k) := by
  simp [amdFold, List.range_succ]

/-- Output `k + j` is output `j` of a command whose operands start at sample `k` (R147). -/
theorem amdOutput_shift (first dst k j : Nat) : amdOutput first dst (k + j) = amdOutput (first + 4 * k) (dst + 2 * k) j := by
  funext x
  simp only [amdOutput, Nat.mul_add, Nat.add_assoc]

end Sys2Proof.Machine
end

