-- ==== Sys2Proof/Laws/PerInstr.lean ====
section
/-! SUPPORT. The family `EncodingFields`: what holds of every command as syntax, one lemma per command (spec/30_encoding.md R90 to R93). -/

namespace Sys2Proof.Laws.EncodingFields

/-- The unit a command drives, by R91's numbering: 1 DDC, 2 AFT, 3 AMD, 4 SSB. -/
def unitOf : Instr → BitVec 4
  | .ddcInit => 1
  | .ddcProc => 1
  | .aftInit => 2
  | .aftMix => 2
  | .amdInit => 3
  | .amdDet => 3
  | .ssbInit => 4
  | .ssbDet => 4

/-- The function a command is, by R92's numbering: 0 INIT, 1 the processing command. -/
def fnOf : Instr → BitVec 4
  | .ddcInit => 0
  | .ddcProc => 1
  | .aftInit => 0
  | .aftMix => 1
  | .amdInit => 0
  | .amdDet => 1
  | .ssbInit => 0
  | .ssbDet => 1

/-- A command is well formed, its word has bits 31:8 zero, UNIT its unit and FN its function (R90), and the decoder reads it back from the
word and from the opcode table's 32 bits. -/
def Statement (i : Instr) : Prop :=
  i.wellFormed = true ∧ encode i = 0#24 ++ unitOf i ++ fnOf i ∧ decode (encode i) = .ok i
    ∧ decodeTableWord 32 (encode i).toNat = some i

theorem ddcInit : Statement .ddcInit := ⟨rfl, rfl, rfl, rfl⟩
theorem ddcProc : Statement .ddcProc := ⟨rfl, rfl, rfl, rfl⟩
theorem aftInit : Statement .aftInit := ⟨rfl, rfl, rfl, rfl⟩
theorem aftMix : Statement .aftMix := ⟨rfl, rfl, rfl, rfl⟩
theorem amdInit : Statement .amdInit := ⟨rfl, rfl, rfl, rfl⟩
theorem amdDet : Statement .amdDet := ⟨rfl, rfl, rfl, rfl⟩
theorem ssbInit : Statement .ssbInit := ⟨rfl, rfl, rfl, rfl⟩
theorem ssbDet : Statement .ssbDet := ⟨rfl, rfl, rfl, rfl⟩

end Sys2Proof.Laws.EncodingFields
end

