-- ==== Sys2Proof/Laws/Ssb.lean ====
section
/-! SUPPORT. What SSB.DET does to memory, once: the look-back slot (spec/43_ssb.md R169), the canonical form kept, the bytes left alone
(20_memory.md R81). -/

namespace Sys2Proof.Machine

/-- The look-back slot (R169). -/
theorem ssbLookBack_eq {idx sh n : Nat} (hs : sh ≤ n) :
    ssbLookBack idx sh n = if sh ≤ idx then idx - sh else idx + n - sh := by
  simp only [ssbLookBack]
  split <;> split <;> omega

theorem ssbLookBack_lt {idx sh n : Nat} (hi : idx < n) (hs : sh ≤ n) : ssbLookBack idx sh n < n := by
  rw [ssbLookBack_eq hs]
  split <;> omega

/-- SSB.DET keeps memory canonical. -/
theorem ssbLoop_wf (u : Ssb) (first dst k : Nat) {m : Memory} (hm : m.wf = true) :
    (forLoop (ssbOutput u first dst) k m).wf = true :=
  forLoop_invariant (P := fun _ (x : Memory) => x.wf = true) hm (fun _ _ _ h => writeAudio_wf h _ _)

/-- A byte outside the first `k` outputs is left alone by them (R79, R81). -/
theorem ssbLoop_outside {u : Ssb} {first dst n : Nat} {m : Memory} (hm : m.wf = true) (hd : 0 < n → dst + 2 * n ≤ 4294967296)
    {k : Nat} (hk : k ≤ n) {a : Nat} (ha : ¬ InSpan a dst (2 * k)) :
    (forLoop (ssbOutput u first dst) k m).readByte a = m.readByte a := by
  induction k with
  | zero => rfl
  | succ k ih =>
    rw [← ih (by omega) (by omega), forLoop_succ]
    exact readByte_writeAudio_outside (ssbLoop_wf _ _ _ _ hm) (by have := hd (by omega); omega) _ (by omega)

/-- An output depends on I of the current sample and on Q of the look-back slot only (R81). -/
theorem ssbValue_congr {u : Ssb} {m m' : Memory} {p : Nat} (hi : ∀ a, InSpan a p 2 → m.readByte a = m'.readByte a)
    (hq : ∀ a, InSpan a (u.ringBegin.toNat + 4 * ssbLookBack (ssbSlot u p) u.shift.toNat u.len.toNat + 2) 2 →
      m.readByte a = m'.readByte a) : ssbValue u m p = ssbValue u m' p := by
  have h1 : iAt m p = iAt m' p := iAt_congr (fun c h1 h2 => hi c ⟨h1, h2⟩)
  have h2 := qAt_congr (m := m) (m' := m') (a := u.ringBegin.toNat + 4 * ssbLookBack (ssbSlot u p) u.shift.toNat u.len.toNat)
    (fun c h1 h2 => hq c ⟨h1, by omega⟩)
  simp only [ssbValue, h1, h2]

/-- Output `k + j` is output `j` of a command whose operands start at sample `k` (R171). -/
theorem ssbOutput_shift (u : Ssb) (first dst k j : Nat) : ssbOutput u first dst (k + j) = ssbOutput u (first + 4 * k) (dst + 2 * k) j := by
  funext x
  simp only [ssbOutput, Nat.mul_add, Nat.add_assoc]

end Sys2Proof.Machine
end

