-- ==== Sys2Proof/Laws/Step.lean ====
section
/-! SUPPORT. What a step does for each host action, once, and what no command touches. -/

namespace Sys2Proof.Machine

theorem step_idle {s : State} (h : s.script = []) : step s = .next s := by
  simp [step, hostStep, h]

theorem step_cons {s : State} {a : HostAction} {rest : List HostAction} (h : s.script = a :: rest) :
    step s = hostAct a (s.setScript rest) := by
  simp [step, hostStep, h]

theorem step_cmdWrite {s : State} {w : Word} {rest : List HostAction} (h : s.script = .regWrite .word 0 w :: rest) :
    step s = issueCommand w (s.setScript rest) := by
  rw [step_cons h]
  rfl

theorem step_reset {s : State} {rest : List HostAction} (h : s.script = .reset :: rest) :
    step s = .next (resetBlock (s.setScript rest)) := step_cons h

theorem regAccess_iff (wd : AccessWidth) (o : Nat) : regAccess wd o = true ↔ wd = .word ∧ o % 4 = 0 ∧ o ≤ 0x11C := by
  cases wd <;> simp [regAccess]

theorem hostSpanOk_iff (wd : AccessWidth) (a : Nat) : hostSpanOk wd a = true ↔ a + wd.bytes ≤ 4294967296 := by
  cases wd <;> simp [hostSpanOk] <;> omega

/-- All a register write can do: issue a command, set argument registers, or nothing. -/
theorem hostRegWrite_cases {wd : AccessWidth} {o v : Word} {s t : State} (h : hostRegWrite wd o v s = .next t) :
    (wd = .word ∧ o = 0 ∧ issueCommand v s = .next t) ∨ (wd = .word ∧ 0x010 ≤ o.toNat ∧ o.toNat ≤ 0x02C ∧ ∃ a, t = s.setArgs a)
      ∨ t = s := by
  unfold hostRegWrite at h
  split at h
  · next hr =>
    have hw := (regAccess_iff ..).1 hr
    split at h
    · next ho =>
      have := List.find?_some ho
      refine .inl ⟨hw.1, BitVec.eq_of_toNat_eq ?_, h⟩
      exact (beq_iff_eq.1 this).symm
    · next r hne ho =>
      have hof : r.offset = o.toNat := by simpa using List.find?_some ho
      cases h
      by_cases hin : 0x010 ≤ o.toNat ∧ o.toNat ≤ 0x02C
      · exact .inr (.inl ⟨hw.1, hin.1, hin.2, _, rfl⟩)
      · refine .inr (.inr ?_)
        cases r <;> simp only [Reg.offset] at hof <;> first | rfl | omega
    · cases h
      exact .inr (.inr rfl)
  · cases h

/-- All a CMD write can do: nothing while a fault stands, a fault, or a command. -/
theorem issueCommand_cases {w : Word} {s t : State} (h : issueCommand w s = .next t) :
    (s.status.fault = true ∧ t = s) ∨ (s.status.fault = false ∧ (∃ e, decode w = .error e) ∧ t = raiseFault .illegalCmd w s)
      ∨ ∃ i, s.status.fault = false ∧ decode w = .ok i ∧ exec i s = .next t := by
  unfold issueCommand at h
  split at h
  · next hf =>
    cases h
    exact .inl ⟨hf, rfl⟩
  · next hf =>
    split at h
    · next e he =>
      cases h
      exact .inr (.inl ⟨by simpa using hf, ⟨e, he⟩, rfl⟩)
    · next i hi => exact .inr (.inr ⟨i, by simpa using hf, hi, h⟩)

/-- All a step can do, by the host action at the head of the script. -/
theorem step_cases {s t : State} (h : step s = .next t) :
    (s.script = [] ∧ t = s)
      ∨ ∃ a rest, s.script = a :: rest ∧
        ((∃ v, a = .regWrite .word 0 v ∧ issueCommand v (s.setScript rest) = .next t)
          ∨ (∃ o v, a = .regWrite .word o v ∧ 0x010 ≤ o.toNat ∧ o.toNat ≤ 0x02C ∧ ∃ g, t = (s.setScript rest).setArgs g)
          ∨ ((∃ wd o v, a = .regWrite wd o v) ∧ t = s.setScript rest)
          ∨ ((∃ wd o, a = .regRead wd o) ∧ ∃ v, t = reply v (s.setScript rest))
          ∨ (∃ wd ad v, a = .memWrite wd ad v ∧ ad.toNat + wd.bytes ≤ 4294967296
              ∧ t = (s.setScript rest).setMem (memWrite s.mem ad.toNat wd.bytes v.toNat))
          ∨ ((∃ wd ad, a = .memRead wd ad) ∧ ∃ v, t = reply v (s.setScript rest))
          ∨ (a = .reset ∧ t = resetBlock (s.setScript rest))) := by
  cases hs : s.script with
  | nil =>
    rw [step_idle hs] at h
    cases h
    exact .inl ⟨rfl, rfl⟩
  | cons a rest =>
    rw [step_cons hs] at h
    refine .inr ⟨a, rest, rfl, ?_⟩
    cases a with
    | regWrite wd o v =>
      rcases hostRegWrite_cases h with ⟨rfl, rfl, h⟩ | ⟨rfl, h1, h2, h3⟩ | h
      · exact .inl ⟨v, rfl, h⟩
      · exact .inr (.inl ⟨o, v, rfl, h1, h2, h3⟩)
      · exact .inr (.inr (.inl ⟨⟨wd, o, v, rfl⟩, h⟩))
    | regRead wd o =>
      simp only [hostAct, hostRegRead] at h
      split at h
      · cases h
        exact .inr (.inr (.inr (.inl ⟨⟨wd, o, rfl⟩, _, rfl⟩)))
      · cases h
    | memWrite wd ad v =>
      simp only [hostAct, hostMemWrite] at h
      split at h
      · next hok =>
        cases h
        exact .inr (.inr (.inr (.inr (.inl ⟨wd, ad, v, rfl, (hostSpanOk_iff ..).1 hok, rfl⟩))))
      · cases h
    | memRead wd ad =>
      simp only [hostAct, hostMemRead] at h
      split at h
      · cases h
        exact .inr (.inr (.inr (.inr (.inr (.inl ⟨⟨wd, ad, rfl⟩, _, rfl⟩)))))
      · cases h
    | reset =>
      cases h
      exact .inr (.inr (.inr (.inr (.inr (.inr ⟨rfl, rfl⟩)))))

end Sys2Proof.Machine
end

