-- ==== Sys2Proof/Tests/Slice0.lean ====
section
/-! SUPPORT. Tests of the model, their expected values from spec/95_test_vectors.md (named in each) or counted by hand from the cited
rule, and a witness for the hypotheses of every statement. -/

namespace Sys2Proof.Tests

open Sys2Proof Sys2Proof.Machine

/-! ### Builders -/

/-- 16-bit elements from `a` up. -/
def put16 (m : Memory) : Nat → List Int → Memory
  | _, [] => m
  | a, v :: rest => put16 (memWrite m a 2 (umod 16 v)) (a + 2) rest

/-- Three memories used by many tests: period-4 tables and raw samples, IQSamples at 0x2000, nothing. -/
def memDdc (raw : List Int) : Memory :=
  put16 (put16 (put16 ⟨[]⟩ 0x1000 [1, 0, -1, 0]) 0x1100 [0, 1, 0, -1]) 0x2000 raw

/-- Argument registers. -/
def argsOf (a0 a1 a2 a3 a4 a5 a6 : Nat) : Args :=
  ⟨BitVec.ofNat 32 a0, BitVec.ofNat 32 a1, BitVec.ofNat 32 a2, BitVec.ofNat 32 a3, BitVec.ofNat 32 a4, BitVec.ofNat 32 a5,
    BitVec.ofNat 32 a6, 0⟩

/-- After reset with these arguments. -/
def fresh (g : Args) : State := { State.reset with args := g }

/-- After reset, this host action next. -/
def doing (a : HostAction) : State := { State.reset with script := [a] }

/-- After reset and an ILLEGAL_CMD fault of the word 0x99, this host action next. -/
def faulted (a : HostAction) : State :=
  { State.reset with status := { Status.reset with fault := true }, fcause := .illegalCmd, fcmd := 0x99, script := [a] }

/-- The DDC ready with ratio `r`, shift `sh` and capacity `cap` on the tables of `memDdc`, and a DDC.PROC range and destination. -/
def ddcS (raw : List Int) (r sh cap b e d : Nat) : State :=
  { State.reset with
    args := argsOf b e d 0 0 0 0
    status := { Status.reset with ddcRdy := true }
    ddc := ⟨0x1000, 0x1100, 4, BitVec.ofNat 32 r, BitVec.ofNat 32 sh, if cap = 0 then 0 else 0x3000, BitVec.ofNat 32 cap, 0, 0⟩
    mem := memDdc raw }

/-- The AFT ready with tables `tc` at 0x1000 and `ts` at 0x1100, input `iq` at 0x2000. -/
def aftS (tc ts iq : List Int) (sh mode b e d : Nat) : State :=
  { State.reset with
    args := argsOf b e d 0 0 0 0
    status := { Status.reset with aftRdy := true }
    aft := ⟨0x1000, 0x1100, BitVec.ofNat 32 tc.length, BitVec.ofNat 32 sh, BitVec.ofNat 32 mode, 0⟩
    mem := put16 (put16 (put16 ⟨[]⟩ 0x1000 tc) 0x1100 ts) 0x2000 iq }

/-- The AMD ready with this calibration, input `iq` at 0x2000. -/
def amdS (iq : List Int) (pa pb pc : Int) (qa qb al b e d : Nat) : State :=
  { State.reset with
    args := argsOf b e d 0 0 0 0
    status := { Status.reset with amdRdy := true }
    amd := ⟨BitVec.ofInt 32 pa, BitVec.ofInt 32 pb, BitVec.ofInt 32 pc, BitVec.ofNat 32 qa, BitVec.ofNat 32 qb, BitVec.ofNat 32 al, 0⟩
    mem := put16 ⟨[]⟩ 0x2000 iq }

/-- The ring of V-SSB-1: (1, 10) .. (8, 80). -/
def ring8 : List Int := [1, 10, 2, 20, 3, 30, 4, 40, 5, 50, 6, 60, 7, 70, 8, 80]

/-- The SSB ready on a ring of `n` slots at 0x2000 with look-back `sh` (rate 4·sh, frequency 1). -/
def ssbS (iq : List Int) (sh n b e d : Nat) : State :=
  { State.reset with
    args := argsOf b e d 0 0 0 0
    status := { Status.reset with ssbRdy := true }
    ssb := ⟨0x2000, BitVec.ofNat 32 (0x2000 + 4 * n), BitVec.ofNat 32 (4 * sh), 1, BitVec.ofNat 32 (4 * sh), BitVec.ofNat 32 sh,
      BitVec.ofNat 32 n⟩
    mem := put16 ⟨[]⟩ 0x2000 iq }

/-- `test` holds of the next state, if there is one. -/
def nextIs (o : Host.Outcome State Fault Refusal) (test : State → Bool) : Bool :=
  match o with
  | .next t => test t
  | .fault _ => false
  | .refused _ => false

/-- The 16-bit signed elements from `a` up. -/
def get16 (s : State) (a : Nat) : Nat → List Int
  | 0 => []
  | n + 1 => audioAt s.mem a :: get16 s (a + 2) n

/-- (STATUS, FCAUSE, FCMD) as the host reads them. -/
def faultRegs (s : State) : List Word := [readReg .status s, readReg .fcause s, readReg .fcmd s]

/-! ### WellFormed refuses what the spec gives no meaning (R186, R60) -/

theorem test_wf_narrow_register_access :
    (HostAction.regWrite .byte 0x010 0).wellFormed = false ∧ (HostAction.regRead .half 0x004).wellFormed = false := by decide

theorem test_wf_misaligned_register_access :
    (HostAction.regWrite .word 0x012 0).wellFormed = false ∧ (HostAction.regRead .word 0x001).wellFormed = false := by decide

theorem test_wf_offset_past_register_space :
    (HostAction.regWrite .word 0x120 0).wellFormed = false ∧ (HostAction.regRead .word 0x120).wellFormed = false
      ∧ (HostAction.regRead .word 0x11C).wellFormed = true := by decide

theorem test_wf_memory_access_past_the_top :
    (HostAction.memWrite .word 0xFFFFFFFD 0).wellFormed = false ∧ (HostAction.memRead .half 0xFFFFFFFF).wellFormed = false
      ∧ (HostAction.memWrite .byte 0xFFFFFFFF 0).wellFormed = true ∧ (HostAction.memRead .word 0xFFFFFFFC).wellFormed = true := by decide

theorem test_wf_step_refuses_what_it_refuses :
    step (doing (.regRead .half 0x004)) = .refused .registerAccessNotDefined
      ∧ step (doing (.memRead .word 0xFFFFFFFD)) = .fault .outsideDataMemory := ⟨rfl, rfl⟩

/-! ### Decoding: words written out bit by bit from R90: zero(31:8) UNIT(7:4) FN(3:0) -/

theorem test_decode_ddc : decode 0b00000000000000000000000000010000#32 = .ok .ddcInit
    ∧ decode 0b00000000000000000000000000010001#32 = .ok .ddcProc := by decide

theorem test_decode_aft : decode 0b00000000000000000000000000100000#32 = .ok .aftInit
    ∧ decode 0b00000000000000000000000000100001#32 = .ok .aftMix := by decide

theorem test_decode_amd : decode 0b00000000000000000000000000110000#32 = .ok .amdInit
    ∧ decode 0b00000000000000000000000000110001#32 = .ok .amdDet := by decide

theorem test_decode_ssb : decode 0b00000000000000000000000001000000#32 = .ok .ssbInit
    ∧ decode 0b00000000000000000000000001000001#32 = .ok .ssbDet := by decide

/-- V-ENC-1: the illegal words of its table, each with the field of R103 that is wrong. -/
theorem test_decode_illegal :
    ([0x00000110, 0x80000010, 0xFFFFFFFF] : List Word).all (fun w => decide (decode w = .error .zeroField)) = true
      ∧ ([0x00000000, 0x00000001, 0x00000050, 0x000000F0] : List Word).all (fun w => decide (decode w = .error .unitField)) = true
      ∧ ([0x00000012, 0x0000001F] : List Word).all (fun w => decide (decode w = .error .fnField)) = true := by decide

theorem test_decodeTableWord : decodeTableWord 32 0x31 = some .amdDet ∧ decodeTableWord 32 0x12 = none
    ∧ decodeTableWord 64 (0x31 + 2 ^ 32) = none := by decide

/-! ### One step of each command -/

/-- V-DDC-12, lines 8 and 10: linear mode stores DST 0; a ring that ends exactly at 2^32 is legal. -/
theorem test_ddcInit_latches :
    nextIs (exec .ddcInit (fresh (argsOf 0x1000 0x1100 4 1 0 0x3002 0))) (fun t =>
        t.ddc == ⟨0x1000, 0x1100, 4, 1, 0, 0, 0, 0, 0⟩ && faultRegs t == [0x00000001, 0, 0]) = true
      ∧ nextIs (exec .ddcInit (fresh (argsOf 0x1000 0x1100 4 1 0 0xFFFFFFF0 4))) (fun t => t.ddc.dst == 0xFFFFFFF0) = true := by decide

/-- V-DDC-12, lines 5, 9 and 11: a table past 2^32, a ring past 2^32, and the first failing check wins. -/
theorem test_ddcInit_faults :
    nextIs (exec .ddcInit (fresh (argsOf 0xFFFFFFFE 0x1100 2 1 0 0x3000 8))) (fun t => faultRegs t == [0x80000000, 8, 0x10]) = true
      ∧ nextIs (exec .ddcInit (fresh (argsOf 0x1000 0x1100 4 1 0 0xFFFFFFF0 5))) (fun t => faultRegs t == [0x80000000, 8, 0x10]) = true
      ∧ nextIs (exec .ddcInit (fresh (argsOf 0x1001 0x1100 0 0 0 0 0))) (fun t => faultRegs t == [0x80000000, 3, 0x10]) = true := by
  decide

/-- V-DDC-4: R = 3 does not divide P = 4, and the trailing partial group is dropped. Then, counted by hand from R113 and R118, the largest
raw sample on a coefficient −1 (I) and 1 (Q) with SHIFT 1: −65535 and 65535, halved with floor. -/
theorem test_ddcProc_linear :
    nextIs (exec .ddcProc (ddcS [1, 2, 3, 4, 5, 6, 7] 3 0 0 0x2000 0x200E 0x4000)) (fun t =>
        get16 t 0x4000 6 == [-2, 2, 5, 2, 0, 0] && t.ddc.lutpos == 2 && t.ddc.wpos == 0) = true
      ∧ nextIs (exec .ddcProc (ddcS [0, 65535, 65535] 3 1 0 0x2000 0x2006 0x4000)) (fun t =>
        get16 t 0x4000 2 == [-32768, 32767]) = true := by decide

/-- V-DDC-7: the ring wraps inside one command. -/
theorem test_ddcProc_ring :
    nextIs (exec .ddcProc (ddcS [1, 2, 3, 4, 5] 1 0 3 0x2000 0x200A 0)) (fun t =>
      get16 t 0x3000 6 == [0, -4, 5, 0, -3, 0] && t.ddc.lutpos == 1 && t.ddc.wpos == 2) = true := by decide

/-- V-AFT-8, lines 5 and 8: TS is not checked in mode 0; a table may end exactly at 2^32. -/
theorem test_aftInit_latches :
    nextIs (exec .aftInit (fresh (argsOf 0x1000 1 4 0 0 0 0))) (fun t =>
        t.aft == ⟨0x1000, 1, 4, 0, 0, 0⟩ && faultRegs t == [0x00000002, 0, 0]) = true
      ∧ nextIs (exec .aftInit (fresh (argsOf 0xFFFFFFF8 0 4 0 0 0 0))) (fun t => faultRegs t == [0x00000002, 0, 0]) = true := by decide

/-- V-AFT-8, lines 3, 6 and 10. -/
theorem test_aftInit_faults :
    nextIs (exec .aftInit (fresh (argsOf 0x1000 0 4 0 2 0 0))) (fun t => faultRegs t == [0x80000000, 7, 0x20]) = true
      ∧ nextIs (exec .aftInit (fresh (argsOf 0x1000 1 4 0 1 0 0))) (fun t => faultRegs t == [0x80000000, 8, 0x20]) = true
      ∧ nextIs (exec .aftInit (fresh (argsOf 0x1000 0 0 99 7 0 0))) (fun t => faultRegs t == [0x80000000, 3, 0x20]) = true := by decide

/-- V-AFT-3: the halves of negative products are floored. Then, counted by hand from R134 and R137, a coefficient −1 with SHIFT 1: the
products −3 and 5. -/
theorem test_aftMix_minimal :
    nextIs (exec .aftMix (aftS [3] [] [-5, 5, -1, 1] 1 0 0x2000 0x2008 0x4000)) (fun t =>
        get16 t 0x4000 4 == [-8, 7, -2, 1] && t.aft.lutpos == 0) = true
      ∧ nextIs (exec .aftMix (aftS [-1] [] [3, -5] 1 0 0x2000 0x2004 0x4000)) (fun t => get16 t 0x4000 2 == [-2, 2]) = true := by decide

/-- V-AFT-4: the complex product, each part on its own table. -/
theorem test_aftMix_general :
    nextIs (exec .aftMix (aftS [0, 2] [1, 3] [3, 4, 5, 7] 0 1 0x2000 0x2008 0x4000)) (fun t =>
      get16 t 0x4000 4 == [-4, 3, -11, 29] && t.aft.lutpos == 0) = true := by decide

/-- V-AMD-5 (c): the largest legal operands. -/
theorem test_amdInit_latches :
    nextIs (exec .amdInit (fresh (argsOf 0xFFFFFFFF 1 2 63 63 65536 0))) (fun t =>
      t.amd == ⟨0xFFFFFFFF, 1, 2, 63, 63, 65536, 0⟩ && faultRegs t == [0x00000004, 0, 0]) = true := by decide

/-- V-AMD-9. -/
theorem test_amdInit_faults :
    nextIs (exec .amdInit (fresh (argsOf 0 0 0 64 0 0 0))) (fun t => faultRegs t == [0x80000000, 7, 0x30]) = true
      ∧ nextIs (exec .amdInit (fresh (argsOf 0 0 0 0 64 0 0))) (fun t => faultRegs t == [0x80000000, 7, 0x30]) = true
      ∧ nextIs (exec .amdInit (fresh (argsOf 0 0 0 0 0 65537 0))) (fun t => faultRegs t == [0x80000000, 7, 0x30]) = true := by decide

/-- V-AMD-1: every term of the polynomial. -/
theorem test_amdDet_all_terms :
    nextIs (exec .amdDet (amdS [300, 400] (-1) 3 100 20 10 3277 0x2000 0x2004 0x4000)) (fun t =>
      get16 t 0x4000 1 == [338] && t.amd.state == 0x01522BAF) = true := by decide

/-- V-AMD-4 (b): a negative state's integer part is taken toward zero. -/
theorem test_amdDet_toward_zero :
    nextIs (exec .amdDet (amdS [0, 0, 0, 0, 0, 0] 0 0 (-1) 0 0 32768 0x2000 0x200C 0x4000)) (fun t =>
      get16 t 0x4000 3 == [0, 0, 0] && t.amd.state == 0xFFFF2000) = true := by decide

/-- V-SSB-1 and V-SSB-3: the delay computation; a shift equal to the ring length is accepted. -/
theorem test_ssbInit_latches :
    nextIs (exec .ssbInit (fresh (argsOf 0x2000 0x2020 8000 1000 0 0 0))) (fun t =>
        t.ssb == ⟨0x2000, 0x2020, 8000, 1000, 8, 2, 8⟩ && faultRegs t == [0x00000008, 0, 0]) = true
      ∧ nextIs (exec .ssbInit (fresh (argsOf 0x2000 0x2008 11 1 0 0 0))) (fun t =>
        t.ssb == ⟨0x2000, 0x2008, 11, 1, 11, 2, 2⟩) = true := by decide

/-- V-SSB-3 and V-SSB-7: a shift past the ring length, an empty ring, and the first failing check. -/
theorem test_ssbInit_faults :
    nextIs (exec .ssbInit (fresh (argsOf 0x2000 0x2008 12 1 0 0 0))) (fun t => faultRegs t == [0x80000000, 6, 0x40]) = true
      ∧ nextIs (exec .ssbInit (fresh (argsOf 0x2000 0x2000 8000 1000 0 0 0))) (fun t => faultRegs t == [0x80000000, 8, 0x40]) = true
      ∧ nextIs (exec .ssbInit (fresh (argsOf 0x2001 0x2000 8000 0 0 0 0))) (fun t => faultRegs t == [0x80000000, 5, 0x40]) = true := by
  decide

/-- V-SSB-1: the source's scenario, all eight outputs. -/
theorem test_ssbDet_ring :
    nextIs (exec .ssbDet (ssbS ring8 2 8 0x2000 0x2020 0x2100)) (fun t =>
      get16 t 0x2100 8 == [-69, -78, -7, -16, -25, -34, -43, -52]) = true := by decide

/-- V-SSB-4: shift 0, and the difference cut to 16 bits. -/
theorem test_ssbDet_wraps :
    nextIs (exec .ssbDet (ssbS [30000, -10000, -30000, 10000] 0 2 0x2000 0x2008 0x2100)) (fun t =>
      get16 t 0x2100 2 == [-25536, 25536]) = true := by decide

/-! ### The host's side -/

/-- V-REG-1: A7 keeps what is written, STATUS and DDC.PERIOD ignore it. -/
theorem test_host_register_writes :
    nextIs (step (doing (lineWR .a7 0xDEADBEEF))) (fun t => readReg .a7 t == 0xDEADBEEF) = true
      ∧ nextIs (step (doing (lineWR .status 0xFFFFFFFF))) (fun t => readReg .status t == 0) = true
      ∧ nextIs (step (doing (lineWR .ddcPeriod 5))) (fun t => readReg .ddcPeriod t == 0) = true := by decide

/-- P2: the encoding of its SSB.INIT pseudo-operation. -/
theorem test_pseudo_operation_encoding :
    (pseudoOp .ssbInit [some 0x2000, some 0x2020, some 8000, some 1000]).map encodeScript
      = some [(0x010, 0x00002000), (0x014, 0x00002020), (0x018, 0x00001F40), (0x01C, 0x000003E8), (0x000, 0x00000040)] := by decide

/-- V-ENC-1, last line but one of the word table: the step itself raises ILLEGAL_CMD and records the word. -/
theorem test_step_illegal_word :
    nextIs (step (doing (cmdWrite 0x80000010))) (fun t => faultRegs t == [0x80000000, 1, 0x80000010]) = true := by decide

/-- R64, P1: −10 is stored as the bytes F6 FF. -/
theorem test_memory_little_endian :
    nextIs (step (doing (lineMW16 0x3008 (-10)))) (fun t =>
      t.mem.readByte 0x3008 == 0xF6 && t.mem.readByte 0x3009 == 0xFF && t.mem.readByte 0x300A == 0) = true := by decide

/-! ### Witnesses: for every statement, states and operands that meet all its hypotheses, clause by clause -/

/-- The state a next outcome carries. -/
def got (o : Host.Outcome State Fault Refusal) : State :=
  match o with
  | .next t => t
  | .fault _ => State.reset
  | .refused _ => State.reset

/-- A ready, legal state for each processing command, its operands accepted, one output or more. -/
def ddcOne : State := ddcS [1, 2, 3] 3 0 0 0x2000 0x2006 0x4000
def ddcRing : State := ddcS [1, 2, 3, 4, 5, 6, 7] 3 0 2 0x2000 0x200E 0
def aftOne (mode : Nat) : State := aftS [3] [5] [-5, 5] 1 mode 0x2000 0x2004 0x4000
def aftTwo : State := aftS [3] [5] [-5, 5, -1, 1] 1 0 0x2000 0x2008 0x4000
def amdTwo : State := amdS [3, 4, 5, 6] 0 1 0 0 0 32768 0x2000 0x2008 0x4000
def amdOne : State := amdS [3, 4] 0 1 0 0 0 32768 0x2000 0x2004 0x4000
def ssbTwo : State := ssbS ring8 2 8 0x2000 0x2008 0x4000
def ssbOne : State := ssbS ring8 2 8 0x2000 0x2004 0x4000

/-- Clauses: ignored while faulted; a word next to the table's; the table's last word. -/
theorem witness_CommandIssueFollowsTheThreeCases :
    ((faulted (cmdWrite 0x10)).script = .regWrite .word 0 0x10 :: [] ∧ (faulted (cmdWrite 0x10)).status.fault = true)
      ∧ ((doing (cmdWrite 0x12)).script = .regWrite .word 0 0x12 :: [] ∧ (doing (cmdWrite 0x12)).status.fault = false
          ∧ (0x12 : Word) ∉ ([0x10#32, 0x11#32, 0x20#32, 0x21#32, 0x30#32, 0x31#32, 0x40#32, 0x41#32] : List Word))
      ∧ ((doing (cmdWrite 0x41)).script = .regWrite .word 0 0x41 :: [] ∧ (doing (cmdWrite 0x41)).status.fault = false
          ∧ (0x41 : Word) = encode .ssbDet) := by decide

theorem witness_StepRunsTheDecodedCommand :
    (doing (cmdWrite 0x30)).script = .regWrite .word 0 0x30 :: [] ∧ (doing (cmdWrite 0x30)).status.fault = false
      ∧ decode 0x30 = .ok .amdInit := by decide

theorem witness_PseudoOperationLoadsOperandsAndRuns :
    Instr.ssbDet ∈ [Instr.ddcProc, .aftMix, .amdDet, .ssbDet] ∧ ssbOne.status.fault = false := by decide

/-- An unready unit's command faults. -/
theorem witness_FaultEntryRecordsCauseAndWordOnly :
    (doing (cmdWrite 0x11)).script = .regWrite .word 0 0x11 :: [] ∧ (doing (cmdWrite 0x11)).status.fault = false
      ∧ step (doing (cmdWrite 0x11)) = .next (got (step (doing (cmdWrite 0x11))))
      ∧ (got (step (doing (cmdWrite 0x11)))).status.fault = true := ⟨rfl, rfl, rfl, rfl⟩

/-- Clauses: a command, an argument write, a register read, and any step but Reset. -/
theorem witness_FaultedBlockIgnoresCommandsUntilReset :
    ((faulted (cmdWrite 0x10)).status.fault = true ∧ (faulted (cmdWrite 0x10)).script = .regWrite .word 0 0x10 :: [])
      ∧ ((faulted (.regWrite .word 0x02C 7)).script = .regWrite .word (BitVec.ofNat 32 (Reg.offset .a7)) 7 :: [] ∧ Reg.a7 ∈ argRegs
          ∧ Reg.a0 ∈ argRegs ∧ Reg.a0 ≠ Reg.a7)
      ∧ (faulted (lineRD .ssbLen)).script = .regRead .word (BitVec.ofNat 32 (Reg.offset .ssbLen)) :: []
      ∧ step (faulted (lineRD .ssbLen)) = .next (got (step (faulted (lineRD .ssbLen))))
      ∧ ∀ rest, (faulted (lineRD .ssbLen)).script ≠ .reset :: rest := by
  refine ⟨by decide, by decide, by decide, rfl, fun rest h => ?_⟩
  simp [faulted, lineRD] at h

theorem witness_OnlyResetClearsAFault :
    (faulted .reset).status.fault = true ∧ step (faulted .reset) = .next (got (step (faulted .reset)))
      ∧ (got (step (faulted .reset))).status.fault = false := ⟨rfl, rfl, rfl⟩

/-- One state per clause; the last meets CFG_ADDR by one byte past 2^32 in the ring. -/
theorem witness_DdcInitReportsItsFirstFailingCheck :
    (fresh (argsOf 1 1 0 0 99 1 9)).args.a2 = 0
      ∧ ((fresh (argsOf 1 1 4 0 99 1 9)).args.a2 ≠ 0 ∧ (fresh (argsOf 1 1 4 0 99 1 9)).args.a3 = 0)
      ∧ ((fresh (argsOf 1 1 4 1 32 1 9)).args.a2 ≠ 0 ∧ (fresh (argsOf 1 1 4 1 32 1 9)).args.a3 ≠ 0
          ∧ 31 < (fresh (argsOf 1 1 4 1 32 1 9)).args.a4.toNat)
      ∧ (let s := fresh (argsOf 0 0 4 1 31 0xFFFFFFFC 2);
          s.args.a2 ≠ 0 ∧ s.args.a3 ≠ 0 ∧ s.args.a4.toNat ≤ 31
            ∧ (s.args.a0.toNat % 2 ≠ 0 ∨ s.args.a1.toNat % 2 ≠ 0 ∨ 2 ^ 32 < s.args.a0.toNat + 2 * s.args.a2.toNat
              ∨ 2 ^ 32 < s.args.a1.toNat + 2 * s.args.a2.toNat
              ∨ (0 < s.args.a6.toNat ∧ (s.args.a5.toNat % 4 ≠ 0 ∨ 2 ^ 32 < s.args.a5.toNat + 4 * s.args.a6.toNat)))) := by decide

theorem witness_AftInitReportsItsFirstFailingCheck :
    (fresh (argsOf 1 1 0 99 7 0 0)).args.a2 = 0
      ∧ ((fresh (argsOf 1 1 4 31 2 0 0)).args.a2 ≠ 0
          ∧ (31 < (fresh (argsOf 1 1 4 31 2 0 0)).args.a3.toNat ∨ 1 < (fresh (argsOf 1 1 4 31 2 0 0)).args.a4.toNat))
      ∧ (let s := fresh (argsOf 0x1000 0xFFFFFFFE 2 31 1 0 0);
          s.args.a2 ≠ 0 ∧ s.args.a3.toNat ≤ 31 ∧ s.args.a4.toNat ≤ 1
            ∧ (s.args.a0.toNat % 2 ≠ 0 ∨ 2 ^ 32 < s.args.a0.toNat + 2 * s.args.a2.toNat
              ∨ (s.args.a4 = 1 ∧ (s.args.a1.toNat % 2 ≠ 0 ∨ 2 ^ 32 < s.args.a1.toNat + 2 * s.args.a2.toNat)))) := by decide

theorem witness_AmdAndSsbInitReportTheirFirstFailingCheck :
    (let s := fresh (argsOf 0 0 0 63 63 65537 0);
      63 < s.args.a3.toNat ∨ 63 < s.args.a4.toNat ∨ 65536 < s.args.a5.toNat)
      ∧ (fresh (argsOf 1 0 8000 0 0 0 0)).args.a3 = 0
      ∧ (let s := fresh (argsOf 0x2000 0x2000 8000 1000 0 0 0);
          s.args.a3 ≠ 0 ∧ (s.args.a0.toNat % 4 ≠ 0 ∨ s.args.a1.toNat % 4 ≠ 0 ∨ s.args.a1.toNat ≤ s.args.a0.toNat))
      ∧ (let s := fresh (argsOf 0x2000 0x2008 12 1 0 0 0);
          s.args.a3 ≠ 0 ∧ s.args.a0.toNat % 4 = 0 ∧ s.args.a1.toNat % 4 = 0 ∧ s.args.a0.toNat < s.args.a1.toNat
            ∧ (s.args.a1.toNat - s.args.a0.toNat) / 4 < s.args.a2.toNat / s.args.a3.toNat / 4) := by decide

theorem witness_ProcessingWithoutInitFaultsNotReady :
    State.reset.status.ddcRdy = false ∧ State.reset.status.aftRdy = false ∧ State.reset.status.amdRdy = false
      ∧ State.reset.status.ssbRdy = false := by decide

/-- Clauses: a bad range and a bad destination of each command, the ring's two edges. -/
theorem witness_ProcessingOnABadRangeFaultsRange :
    ((ddcS [1] 1 0 0 0x2000 0x2003 0x4000).status.ddcRdy = true ∧ ¬ rangeOk (ddcS [1] 1 0 0 0x2000 0x2003 0x4000) 2)
      ∧ (let s := ddcS [1, 2] 1 0 0 0x2000 0x2004 0xFFFFFFFC;
          s.ddc.cap = 0 ∧ ¬ dstOk s ((s.args.a1.toNat - s.args.a0.toNat) / 2 / s.ddc.ratio.toNat) 4)
      ∧ (let s := aftS [1] [] [1, 1] 0 0 0x2000 0x2004 0x4002;
          s.status.aftRdy = true ∧ ¬ dstOk s ((s.args.a1.toNat - s.args.a0.toNat) / 4) 4)
      ∧ (let s := amdS [1, 1] 0 1 0 0 0 0 0x2004 0x2000 0x4000;
          s.status.amdRdy = true ∧ ¬ rangeOk s 4)
      ∧ (let s := ssbS ring8 2 8 0x1FFC 0x2008 0x2100;
          s.status.ssbRdy = true ∧ s.args.a0.toNat < s.ssb.ringBegin.toNat)
      ∧ (let s := ssbS ring8 2 8 0x2000 0x2024 0x2100;
          s.ssb.ringEnd.toNat < s.args.a1.toNat) := by decide

theorem witness_ResetZeroesEveryRegisterAndKeepsMemory :
    ({ ddcOne with script := [.reset] } : State).script = .reset :: [] := by decide

theorem witness_InvariantHoldsAfterReset : (memDdc [1, 2, 3]).wf = true := by decide

/-- A ready unit, its processing command next. -/
def ddcNextProc : State := { ddcOne with script := [cmdWrite 0x11] }

theorem witness_EveryStepKeepsTheInvariant : Inv ddcNextProc ∧ step ddcNextProc = .next (got (step ddcNextProc)) :=
  ⟨{ mem_wf := by decide
     ddc_legal := by decide
     ddc_idle := by decide
     aft_legal := by decide
     aft_idle := by decide
     amd_legal := by decide
     amd_idle := by decide
     ssb_legal := by decide
     ssb_idle := by decide
     fault_regs := by decide }, rfl⟩

theorem witness_StatusAndCauseWordsFollowTheTables : (4 ≤ 4 ∧ 4 ≤ 30) ∧ (4 ≤ 30 ∧ 30 ≤ 30) := by decide

/-- An INIT that is about to set each unit's ready bit. -/
def initNext (w : Word) (g : Args) : State := { State.reset with args := g, script := [cmdWrite w] }

/-- Clauses: a step that is no Reset on a state with a bit set; each ready bit set by its INIT; FAULT set by a CMD write. -/
theorem witness_StatusBitsAreSetAndClearedAsListed :
    (step ddcNextProc = .next (got (step ddcNextProc)) ∧ ddcNextProc.status.ddcRdy = true)
      ∧ ((step (initNext 0x10 (argsOf 0 0 4 1 0 0 0)) = .next (got (step (initNext 0x10 (argsOf 0 0 4 1 0 0 0)))))
          ∧ (initNext 0x10 (argsOf 0 0 4 1 0 0 0)).status.ddcRdy = false
          ∧ (got (step (initNext 0x10 (argsOf 0 0 4 1 0 0 0)))).status.ddcRdy = true)
      ∧ (got (step (initNext 0x20 (argsOf 0 0 4 1 0 0 0)))).status.aftRdy = true
      ∧ (got (step (initNext 0x30 (argsOf 0 0 4 1 0 0 0)))).status.amdRdy = true
      ∧ (got (step (initNext 0x40 (argsOf 0x2000 0x2020 8000 1000 0 0 0)))).status.ssbRdy = true
      ∧ (got (step (initNext 0x40 (argsOf 0x2000 0x2000 8000 1000 0 0 0)))).status.fault = true :=
  ⟨⟨rfl, rfl⟩, ⟨rfl, rfl, rfl⟩, rfl, rfl, rfl, rfl⟩

/-- A step that is no Reset and changes memory and a cursor; one that changes the arguments. -/
theorem witness_RegistersChangeOnlyByTheirOwnCommands :
    (ddcNextProc.script = cmdWrite 0x11 :: [] ∧ cmdWrite 0x11 ≠ .reset ∧ step ddcNextProc = .next (got (step ddcNextProc))
        ∧ (got (step ddcNextProc)).ddc ≠ ddcNextProc.ddc ∧ (got (step ddcNextProc)).mem ≠ ddcNextProc.mem)
      ∧ (got (step (doing (lineWR .a0 1)))).args ≠ (doing (lineWR .a0 1)).args
      ∧ (got (step (initNext 0x30 (argsOf 9 0 0 0 0 0 0)))).amd ≠ Amd.reset := by
  refine ⟨⟨rfl, by decide, rfl, by decide, by decide⟩, by decide, by decide⟩

/-- Clauses: CMD, the first and the last argument register; offsets beside them and the last of register space. -/
theorem witness_RegisterWritesReachArgumentsOnly :
    ((0 : Word).toNat % 4 = 0 ∧ (0 : Word).toNat ≤ 0x11C)
      ∧ ((doing (.regWrite .word 0x010 5)).script = .regWrite .word 0x010 5 :: [] ∧ (0x010 : Word).toNat % 4 = 0
        ∧ (0x010 : Word).toNat ≤ 0x11C)
      ∧ ((0x02C : Word).toNat % 4 = 0 ∧ (0x02C : Word).toNat ≤ 0x11C)
      ∧ ((0x004 : Word) ≠ 0 ∧ (0x004 : Word).toNat < 0x010) ∧ (0x02C < (0x030 : Word).toNat ∧ (0x030 : Word).toNat % 4 = 0)
      ∧ (0x02C < (0x11C : Word).toNat ∧ (0x11C : Word).toNat % 4 = 0 ∧ (0x11C : Word).toNat ≤ 0x11C) := by decide

/-- Clauses: an offset inside the table and the last listed one; the first and the last unlisted offset. -/
theorem witness_RegisterReadsReturnTheRegisterAndChangeNothing :
    ((doing (.regRead .word 0x118)).script = .regRead .word 0x118 :: [] ∧ (0x118 : Word).toNat % 4 = 0
        ∧ (0x118 : Word).toNat ≤ 0x11C ∧ (0x118 : Word).toNat = Reg.ssbLen.offset)
      ∧ ((doing (.regRead .word 0x044)).script = .regRead .word 0x044 :: [] ∧ (0x044 : Word).toNat % 4 = 0 ∧ (0x044 : Word).toNat = 0x044)
      ∧ (∀ r : Reg, (0x030 : Word).toNat ≠ r.offset) ∧ ∀ r : Reg, (0x11C : Word).toNat ≠ r.offset := by
  refine ⟨by decide, by decide, fun r => ?_, fun r => ?_⟩ <;> cases r <;> decide

/-- Offsets on both sides of the edges of the gaps. -/
theorem witness_RegisterMapHasNoOverlap :
    ([0x02C, 0x040, 0x060, 0x080, 0x094, 0x0C0, 0x0D8, 0x100, 0x118].all (fun o => (Reg.ofOffset o).isSome)) = true
      ∧ ([0x030, 0x03C, 0x064, 0x07C, 0x098, 0x0BC, 0x0DC, 0x0FC, 0x11C].all (fun o => (Reg.ofOffset o).isNone)) = true := by decide

/-- A narrow access, the first offset past register space, an offset between words. -/
theorem witness_UndefinedRegisterAccessesAreRefused :
    (AccessWidth.half ≠ .word) ∧ 0x11F < (0x120 : Word).toNat ∧ (0x11D : Word).toNat % 4 ≠ 0
      ∧ (doing (.regRead .half 0x010)).script = .regRead .half 0x010 :: [] := by decide

theorem witness_OnlyIllFormedHostActionsStop :
    (HostAction.regRead .word 0x11C).wellFormed = true
      ∧ (2 ^ 32 < (0xFFFFFFFF : Word).toNat + AccessWidth.half.bytes) ∧ 2 ^ 32 < (0xFFFFFFFD : Word).toNat + AccessWidth.word.bytes := by
  decide

/-- The last byte and the last word of data memory. -/
theorem witness_HostMemoryWriteReadsBack :
    (let s : State := { ddcOne with script := [.memWrite .byte 0xFFFFFFFF 0x1FF, .memRead .byte 0xFFFFFFFF] };
      s.mem.wf = true ∧ s.script = .memWrite .byte 0xFFFFFFFF 0x1FF :: .memRead .byte 0xFFFFFFFF :: []
        ∧ (0xFFFFFFFF : Word).toNat + AccessWidth.byte.bytes ≤ 2 ^ 32)
      ∧ (0xFFFFFFFC : Word).toNat + AccessWidth.word.bytes ≤ 2 ^ 32 := by decide

theorem witness_IdleBlockHoldsItsState : State.reset.script = [] := by decide

/-- Both signs at the ends of the 16-bit range. -/
theorem witness_WidthConversionsFollowTheirDefinitions :
    wrap 16 32768 = -32768 ∧ wrap 16 (-32769) = 32767 ∧ umod 16 (-1) = 65535 ∧ asr (-5) 1 = -3 ∧ tz (-5) 1 = -2 ∧ tz 5 1 = asr 5 1 := by
  decide

/-- A word that ends exactly at 2^32. -/
theorem witness_MemoryElementsAreLittleEndian :
    (memDdc [1]).wf = true ∧ 0xFFFFFFFC + 4 ≤ 2 ^ 32 ∧ 0xFFFFFFFF < 2 ^ (8 * 4) := by decide

theorem witness_IQSamplesReadBack : (memDdc [1]).wf = true ∧ 0xFFFFFFFC + 4 ≤ 2 ^ 32 := by decide

/-- The last element of data memory, a raw sample with its top bit set. -/
theorem witness_TypedReadsExtendAsTheLayoutsSay : (memDdc [1]).wf = true ∧ 0xFFFFFFFE + 2 ≤ 2 ^ 32 ∧ 0xFFFF < 2 ^ 16 := by decide

theorem witness_CanonicalMemoriesWithEqualBytesAreEqual :
    (memWrite (memWrite ⟨[]⟩ 1 1 7) 0 1 9).wf = true ∧ (memWrite (memWrite ⟨[]⟩ 0 1 9) 1 1 7).wf = true
      ∧ ∀ a, a < 2 ^ 32 → (memWrite (memWrite ⟨[]⟩ 1 1 7) 0 1 9).readByte a = (memWrite (memWrite ⟨[]⟩ 0 1 9) 1 1 7).readByte a := by
  refine ⟨by decide, by decide, fun a _ => ?_⟩
  exact congrArg (fun m => Memory.readByte m a) (by decide : memWrite (memWrite ⟨[]⟩ 1 1 7) 0 1 9 = memWrite (memWrite ⟨[]⟩ 0 1 9) 1 1 7)

/-- Every operand at its largest legal value. -/
theorem witness_DdcInitLatchesItsOperands : ddcInitOk (fresh (argsOf 0xFFFFFFF8 0xFFFFFFFC 2 1 31 0xFFFFFFF0 4)) := by decide

theorem witness_AftInitLatchesItsOperands : aftInitOk (fresh (argsOf 0xFFFFFFF8 0xFFFFFFF8 4 31 1 0 0)) := by decide

theorem witness_AmdInitLatchesItsOperands : amdInitOk (fresh (argsOf 0xFFFFFFFF 0 0 63 63 65536 0)) := by decide

theorem witness_SsbInitLatchesAndComputesTheDelay : ssbInitOk (fresh (argsOf 0x2000 0x2008 11 1 0 0 0)) := by decide

/-- Linear mode and ring mode. -/
theorem witness_DdcProcCompletesAndKeepsTheFrame :
    (ddcOne.mem.wf = true ∧ ddcOne.ddc.Legal ∧ ddcProcOk ddcOne ∧ ddcOne.ddc.cap.toNat = 0)
      ∧ (ddcRing.mem.wf = true ∧ ddcRing.ddc.Legal ∧ ddcProcOk ddcRing ∧ 0 < ddcRing.ddc.cap.toNat) :=
  ⟨by decide, by decide⟩

theorem witness_DdcSlotAddressIsTheOneUsed : ddcRing.ddc.Legal ∧ ddcOne.ddc.Legal := by decide

theorem witness_DdcProcOneOutput :
    ddcOne.ddc.Legal ∧ ddcProcOk ddcOne ∧ (ddcOne.args.a1.toNat - ddcOne.args.a0.toNat) / 2 / ddcOne.ddc.ratio.toNat = 1 := by decide

theorem witness_DdcProcSplitsAtGroupBoundaries :
    ddcRing.ddc.Legal ∧ ddcProcOk ddcRing ∧ ddcRing.args.a0.toNat + 2 * (1 * ddcRing.ddc.ratio.toNat) ≤ ddcRing.args.a1.toNat := by
  decide

/-- The destination of a one-output linear command beside its input and tables. -/
theorem witness_DdcProcOutputsFollowTheContract :
    ddcOne.mem.wf = true ∧ ddcOne.ddc.Legal ∧ ddcProcOk ddcOne ∧ (0 < ddcOne.ddc.cap.toNat → ddcCount ddcOne ≤ ddcOne.ddc.cap.toNat)
      ∧ ∀ a, ddcStores ddcOne a → ¬ ddcReads ddcOne a := by
  refine ⟨by decide, by decide, by decide, by decide, ?_⟩
  rintro a ⟨k, hk, h1, h2⟩ hr
  have e : ddcSlotAddr ddcOne.ddc (opDst ddcOne) k = 0x4000 + 4 * k := rfl
  have hk : k < 1 := hk
  rw [e] at h1 h2
  rcases hr with ⟨-, h⟩ | ⟨-, h⟩ | ⟨-, h⟩
  · have h : a < 0x2000 + 6 := h
    omega
  · have h : a < 0x1000 + 8 := h
    omega
  · have h : a < 0x1100 + 8 := h
    omega

theorem witness_DdcProcDropsTheTrailingPartialGroup : ddcRing.ddc.Legal ∧ ddcProcOk ddcRing := by decide

/-- Both tables: products of −1 and −2, and results inside 16 bits. -/
theorem witness_DdcOutputIsExactWithinRange :
    let d : Ddc := { ddcOne.ddc with lutpos := 2 }
    let term (table j : Nat) : Int :=
      rawAt ddcOne.mem (0x2000 + 2 * j) * coefAt ddcOne.mem (table + 2 * ((d.lutpos.toNat + j) % d.period.toNat))
    (∀ table ∈ [d.ti.toNat, d.tq.toNat], (∑ j ∈ Finset.range d.ratio.toNat, |term table j|) ≤ 2 ^ 31 - 1
      ∧ -32768 ≤ (∑ j ∈ Finset.range d.ratio.toNat, term table j) / 2 ^ d.shift.toNat
      ∧ (∑ j ∈ Finset.range d.ratio.toNat, term table j) / 2 ^ d.shift.toNat ≤ 32767) := by decide

theorem witness_AftMixCompletesAndKeepsTheFrame : aftTwo.mem.wf = true ∧ aftTwo.aft.Legal ∧ aftMixOk aftTwo := by decide

theorem witness_AftMixOneSampleMinimalForm :
    (aftOne 0).aft.Legal ∧ aftMixOk (aftOne 0) ∧ ((aftOne 0).args.a1.toNat - (aftOne 0).args.a0.toNat) / 4 = 1
      ∧ (aftOne 0).aft.mode = 0 := by decide

theorem witness_AftMixOneSampleGeneralForm :
    (aftOne 1).aft.Legal ∧ aftMixOk (aftOne 1) ∧ ((aftOne 1).args.a1.toNat - (aftOne 1).args.a0.toNat) / 4 = 1
      ∧ (aftOne 1).aft.mode = 1 := by decide

theorem witness_AftMixSplitsAtSampleBoundaries :
    aftTwo.aft.Legal ∧ aftMixOk aftTwo ∧ aftTwo.args.a0.toNat + 4 * 1 ≤ aftTwo.args.a1.toNat := by decide

/-- In place, and disjoint. -/
theorem witness_AftMixOutputsInPlaceOrDisjoint :
    (let s := aftS [3] [] [-5, 5, -1, 1] 1 0 0x2000 0x2008 0x2000;
      s.mem.wf = true ∧ s.aft.Legal ∧ aftMixOk s ∧ s.aft.mode = 0
        ∧ (∀ a, aftStores s a → ¬ InSpan a s.aft.tc.toNat (2 * s.aft.period.toNat)) ∧ s.args.a2 = s.args.a0)
      ∧ (aftTwo.mem.wf = true ∧ aftTwo.aft.Legal ∧ aftMixOk aftTwo ∧ aftTwo.aft.mode = 0
        ∧ ∀ a, aftStores aftTwo a → ¬ InSpan a aftTwo.args.a0.toNat (aftTwo.args.a1.toNat - aftTwo.args.a0.toNat)) := by
  refine ⟨⟨by decide, by decide, by decide, by decide, ?_, by decide⟩, by decide, by decide, by decide, by decide, ?_⟩
  · rintro a ⟨h1, -⟩ ⟨-, h2⟩
    have h1 : 0x2000 ≤ a := h1
    have h2 : a < 0x1000 + 2 := h2
    omega
  · rintro a ⟨h1, -⟩ ⟨-, h2⟩
    have h1 : 0x4000 ≤ a := h1
    have h2 : a < 0x2000 + 8 := h2
    omega

theorem witness_AmdDetCompletesAndKeepsTheFrame : amdTwo.mem.wf = true ∧ amdTwo.amd.Legal ∧ amdDetOk amdTwo := by decide

theorem witness_AmdDetOneSample :
    amdOne.amd.Legal ∧ amdDetOk amdOne ∧ (amdOne.args.a1.toNat - amdOne.args.a0.toNat) / 4 = 1 := by decide

theorem witness_AmdDetSplitsAtSampleBoundaries :
    amdTwo.amd.Legal ∧ amdDetOk amdTwo ∧ amdTwo.args.a0.toNat + 4 * 1 ≤ amdTwo.args.a1.toNat := by decide

theorem witness_AmdDetFoldsTheFilterOverTheInput :
    amdTwo.mem.wf = true ∧ amdTwo.amd.Legal ∧ amdDetOk amdTwo ∧ ∀ a, audioStores amdTwo a → ¬ amdReads amdTwo a := by
  refine ⟨by decide, by decide, by decide, ?_⟩
  rintro a ⟨h1, -⟩ ⟨-, h2⟩
  have h1 : 0x4000 ≤ a := h1
  have h2 : a < 0x2000 + 8 := h2
  omega

/-- The state below, above and on its target, at the ends of the ranges. -/
theorem witness_AmdFilterApproachesItsTarget :
    (65536 ≤ 65536 ∧ -2 ^ 31 ≤ (-2147483648 : Int) ∧ (-2147483648 : Int) < 2 ^ 31 ∧ -32768 ≤ (32767 : Int) ∧ (32767 : Int) ≤ 32767
        ∧ (-2147483648 : Int) < 32767 * 65536)
      ∧ ((2147483647 : Int) > -32768 * 65536 ∧ 0 < 1) ∧ ((65536 : Int) = 1 * 65536 ∨ 0 = 0) := by decide

theorem witness_SsbDetCompletesAndKeepsTheFrame : ssbTwo.mem.wf = true ∧ ssbTwo.ssb.Legal ∧ ssbDetOk ssbTwo := by decide

/-- Before the start, on the start, and the whole ring back. -/
theorem witness_SsbLookBackWrapsOnce : (0 < 8 ∧ 2 ≤ 8 ∧ 0 < 2) ∧ (2 < 8 ∧ 2 ≤ 2) ∧ (7 < 8 ∧ 8 ≤ 8) := by decide

theorem witness_SsbDetOneSample :
    ssbOne.ssb.Legal ∧ ssbDetOk ssbOne ∧ (ssbOne.args.a1.toNat - ssbOne.args.a0.toNat) / 4 = 1 := by decide

theorem witness_SsbDetSplitsAtSampleBoundaries :
    ssbTwo.ssb.Legal ∧ ssbDetOk ssbTwo ∧ ssbTwo.args.a0.toNat + 4 * 1 ≤ ssbTwo.args.a1.toNat := by decide

theorem witness_SsbDetOutputsAreRepeatable :
    ssbTwo.mem.wf = true ∧ ssbTwo.ssb.Legal ∧ ssbDetOk ssbTwo ∧ ∀ a, audioStores ssbTwo a → ¬ ssbReads ssbTwo a := by
  refine ⟨by decide, by decide, by decide, ?_⟩
  rintro a ⟨h1, -⟩ hr
  have h1 : 0x4000 ≤ a := h1
  rcases hr with ⟨k, hk, -, h2⟩ | ⟨k, hk, -, h2⟩
  · have hk : k < 2 := hk
    have h2 : a < 0x2000 + 4 * k + 2 := h2
    omega
  · have hk : k < 8 := hk
    have h2 : a < 0x2000 + 4 * k + 2 + 2 := h2
    omega

/-- A second memory that differs outside what the command reads (a byte of the destination). -/
theorem witness_ProcessingReadsOnlyItsFootprint :
    amdTwo.mem.wf = true ∧ (amdTwo.mem.writeByte 0x4000 0xAA).wf = true ∧ amdTwo.mem.writeByte 0x4000 0xAA ≠ amdTwo.mem
      ∧ amdTwo.amd.Legal ∧ amdDetOk amdTwo
      ∧ ∀ a, amdReads amdTwo a → amdTwo.mem.readByte a = (amdTwo.mem.writeByte 0x4000 0xAA).readByte a := by
  refine ⟨by decide, by decide, by decide, by decide, by decide, ?_⟩
  rintro a ⟨h1, h2⟩
  have h1 : 0x2000 ≤ a := h1
  have h2 : a < 0x2000 + 8 := h2
  obtain ⟨j, rfl⟩ : ∃ j, a = 0x2000 + j := ⟨a - 0x2000, by omega⟩
  have hj : j < 8 := by omega
  have key : ∀ j, j < 8 → amdTwo.mem.readByte (0x2000 + j) = (amdTwo.mem.writeByte 0x4000 0xAA).readByte (0x2000 + j) := by decide
  exact key j hj

/-- The same for the other three commands, on a memory that differs in no byte. -/
theorem witness_ProcessingReadsOnlyItsFootprint_others :
    (ddcOne.mem.wf = true ∧ ddcOne.ddc.Legal ∧ ddcProcOk ddcOne) ∧ (aftTwo.mem.wf = true ∧ aftTwo.aft.Legal ∧ aftMixOk aftTwo)
      ∧ (ssbTwo.mem.wf = true ∧ ssbTwo.ssb.Legal ∧ ssbDetOk ssbTwo) :=
  ⟨by decide, by decide, by decide⟩

/-- Clauses: fewer samples than R with an odd destination; begin = end, for the SSB on the ring's end. -/
theorem witness_EmptyRangesChangeNothing :
    (let s := ddcS [1, 2] 3 0 0 0x2000 0x2004 0x4001;
      s.status.ddcRdy = true ∧ rangeOk s 2 ∧ (s.args.a1.toNat - s.args.a0.toNat) / 2 < s.ddc.ratio.toNat)
      ∧ (let s := aftS [1] [] [] 0 0 0x2000 0x2000 0x4001;
          s.status.aftRdy = true ∧ rangeOk s 4 ∧ s.args.a0 = s.args.a1)
      ∧ (let s := amdS [] 0 1 0 0 0 0 0x2000 0x2000 0x4001;
          s.status.amdRdy = true ∧ rangeOk s 4 ∧ s.args.a0 = s.args.a1)
      ∧ (let s := ssbS ring8 2 8 0x2020 0x2020 0x2101;
          s.status.ssbRdy = true ∧ rangeOk s 4 ∧ s.args.a0 = s.args.a1 ∧ s.ssb.ringBegin.toNat ≤ s.args.a0.toNat
            ∧ s.args.a1.toNat ≤ s.ssb.ringEnd.toNat) := by decide

end Sys2Proof.Tests
end

section
/-! PROOFS. The family 00_scope: the width conversions by their defining properties (spec/00_scope.md R12) and the typed reads by their bytes
(R14, 20_memory.md R65). -/

namespace Sys2Proof.Machine

/-! ### Width conversions -/

/-- wrap_N is the one residue in the signed range (R12). -/
theorem wrap_eq_iff {n : Nat} (hn : 0 < n) (v x : Int) :
    wrap n v = x ↔ -(2 : Int) ^ (n - 1) ≤ x ∧ x < (2 : Int) ^ (n - 1) ∧ x % 2 ^ n = v % 2 ^ n := by
  constructor
  · rintro rfl
    obtain ⟨hlo, hhi⟩ := wrap_range hn v
    exact ⟨by exact_mod_cast hlo, by exact_mod_cast hhi, by exact_mod_cast wrap_emod n v⟩
  · rintro ⟨hlo, hhi, hmod⟩
    calc wrap n v = wrap n x := wrap_congr (by exact_mod_cast hmod.symm)
      _ = x := wrap_of_range hn (by exact_mod_cast hlo) (by exact_mod_cast hhi)

/-- umod_N is the one residue in 0 .. 2^N − 1 (R12). -/
theorem umod_eq_iff (n : Nat) (v : Int) (u : Nat) : umod n v = u ↔ u < 2 ^ n ∧ (u : Int) % 2 ^ n = v % 2 ^ n := by
  have hcast : ((umod n v : Nat) : Int) = v % 2 ^ n := by exact_mod_cast umod_cast n v
  constructor
  · rintro rfl
    exact ⟨umod_lt n v, by rw [hcast, Int.emod_emod_of_dvd _ dvd_rfl]⟩
  · rintro ⟨hlt, hmod⟩
    have hu : (u : Int) % 2 ^ n = u := Int.emod_eq_of_lt (by positivity) (by exact_mod_cast hlt)
    rw [← hcast, hu] at hmod
    exact_mod_cast hmod.symm

/-- asr is the one integer whose multiples of 2^k enclose the value: the floor (R12). -/
theorem asr_eq_iff (v : Int) (k : Nat) (x : Int) : asr v k = x ↔ x * 2 ^ k ≤ v ∧ v < (x + 1) * 2 ^ k := by
  constructor
  · rintro rfl
    exact asr_bounds v k
  · rintro ⟨hlo, hhi⟩
    have hp : (0 : Int) < 2 ^ k := by positivity
    obtain ⟨hlo', hhi'⟩ := asr_bounds v k
    have h1 : asr v k < x + 1 := lt_of_mul_lt_mul_right (hlo'.trans_lt hhi) hp.le
    have h2 : x < asr v k + 1 := lt_of_mul_lt_mul_right (hlo.trans_lt hhi') hp.le
    omega

/-- Toward zero is the floor where the value is not negative (R12). -/
theorem tz_of_nonneg {v : Int} (hv : 0 ≤ v) (k : Nat) : tz v k = asr v k := Int.tdiv_eq_ediv_of_nonneg hv

/-- Toward zero is the mirrored floor where the value is not positive (R12). -/
theorem tz_of_nonpos {v : Int} (hv : v ≤ 0) (k : Nat) : tz v k = -asr (-v) k :=
  calc tz v k = -tz (-v) k := by rw [tz, tz, Int.neg_tdiv, neg_neg]
    _ = -asr (-v) k := by rw [tz_of_nonneg (by omega)]

/-! ### Typed reads -/

/-- A raw sample is the unsigned number of its two bytes (R14). -/
theorem rawAt_eq_bytes (m : Memory) (a : Nat) : rawAt m a = (m.readByte a).toNat + 256 * (m.readByte (a + 1)).toNat := by
  rw [rawAt, zext, memRead_two, Nat.cast_add, Nat.cast_mul, Nat.cast_ofNat]

/-- A two-byte element read as signed: the unsigned number of its bytes, less 2^16 from 2^15 on (R12, R14). -/
theorem sext_memRead_two (m : Memory) (a : Nat) :
    sext 16 (memRead m a 2) = if rawAt m a < 32768 then rawAt m a else rawAt m a - 65536 :=
  sext_sixteen (memRead_lt m a 2)

/-- A raw sample reads back modulo its width (R14). -/
theorem rawAt_memWrite {m : Memory} (h : m.wf = true) {a : Nat} (ha : a + 2 ≤ 4294967296) (x : Nat) :
    rawAt (memWrite m a 2 x) a = (x % 2 ^ 16 : Nat) := by
  rw [rawAt, zext, memRead_memWrite h ha]

/-- CoefAt reads back a coefficient stored as its pattern, to 16 bits (R14). -/
theorem coefAt_memWrite_umod {m : Memory} (h : m.wf = true) {a : Nat} (ha : a + 2 ≤ 4294967296) (c : Int) :
    coefAt (memWrite m a 2 (umod 16 c)) a = wrap 16 c := by
  rw [coefAt, memRead_memWrite h ha, Nat.mod_eq_of_lt (umod_lt 16 c), sext_umod]

/-! ### The statements -/

/-- Settles O28: each conversion has R12's property, and no other number has it. -/
theorem widthConversionsFollowTheirDefinitions : Obligations.WidthConversionsFollowTheirDefinitions :=
  ⟨fun _ v x hn => wrap_eq_iff hn v x, umod_eq_iff, asr_eq_iff, fun _ k => ⟨fun hv => tz_of_nonneg hv k, fun hv => tz_of_nonpos hv.le k⟩⟩

/-- Settles O60: every typed read is `rawAt` of its bytes, taken as it is or as two's complement, and undoes the write of its layout. -/
theorem typedReadsExtendAsTheLayoutsSay : Obligations.TypedReadsExtendAsTheLayoutsSay := by
  intro m a unsigned signed
  have hsigned (b : Nat) : sext 16 (memRead m b 2) = signed b := by rw [sext_memRead_two, rawAt_eq_bytes]
  refine ⟨⟨rawAt_eq_bytes m a, hsigned a, hsigned a, hsigned (a + 2), hsigned a⟩, fun h ha => ⟨fun x hx => ?_, ?_, ?_⟩⟩
  · rw [rawAt_memWrite h ha, Nat.mod_eq_of_lt hx]
  · exact coefAt_memWrite_umod h ha
  · exact audioAt_writeAudio h ha

end Sys2Proof.Machine
end

section
/-! PROOFS. The family 10_state: what one host action does to the block, once; the invariant is kept, each part of the state changes only
by the actions that own it, and the register map (spec/10_state.md R24 to R42). -/

namespace Sys2Proof.Machine

/-! ### What one action does -/

/-- A word is its three fields (R90). -/
theorem eq_append_fields (w : Word) : w = fieldZero w ++ fieldUnit w ++ fieldFn w := by
  refine BitVec.eq_of_getLsbD_eq fun k hk => ?_
  simp only [fieldZero, fieldUnit, fieldFn, BitVec.getLsbD_append, BitVec.getLsbD_extractLsb']
  by_cases h4 : k < 4
  · simp [h4]
  · by_cases h8 : k < 8
    · simp [h4, show k - 4 < 4 by omega, show 4 + (k - 4) = k by omega]
    · simp [h4, show ¬ k - 4 < 4 by omega, show k - 4 - 4 < 24 by omega, show 8 + (k - 4 - 4) = k by omega]

theorem decodeFn_eq_ok {fn : BitVec 4} {init proc i : Instr} (h : decodeFn fn init proc = .ok i) :
    (fn = 0 ∧ i = init) ∨ (fn = 1 ∧ i = proc) := by
  unfold decodeFn at h
  split at h
  · next h0 => exact .inl ⟨h0, by simpa using h.symm⟩
  · split at h
    · next h1 => exact .inr ⟨h1, by simpa using h.symm⟩
    · cases h

/-- The only word that is a command is that command's word (R93). -/
theorem eq_encode_of_decode {w : Word} {i : Instr} (h : decode w = .ok i) : w = encode i := by
  rw [eq_append_fields w]
  unfold decode at h
  split_ifs at h with hz hu hu hu hu
  all_goals
    rw [not_not.1 hz, hu]
    rcases decodeFn_eq_ok h with ⟨hf, rfl⟩ | ⟨hf, rfl⟩
    all_goals
      rw [hf]
      rfl

/-- What action `a`, performed in state `s`, can answer: the branches of `step_cases`, a CMD write split into what it can come to (no
effect, a fault its word can raise, a command whose checks pass). `step_actsAs` ties it to the model. -/
inductive ActsAs (s : State) : HostAction → State → Prop where
  /-- A write to a register the host cannot set (R42, R187), or a command issued while a fault stands (R205). -/
  | ignored (wd : AccessWidth) (o v : Word) : ActsAs s (.regWrite wd o v) s
  | setArgs (o v : Word) (g : Args) (hlo : 0x010 ≤ o.toNat) (hhi : o.toNat ≤ 0x02C) : ActsAs s (.regWrite .word o v) (s.setArgs g)
  | fault (w : Word) (c : Cause) (hc : c.raisedBy w = true) : ActsAs s (.regWrite .word 0 w) (raiseFault c w s)
  | command (i : Instr) (hok : ∀ p ∈ checksOf i s, p.1 = false) : ActsAs s (.regWrite .word 0 (encode i)) (effectOf i s)
  | regRead (wd : AccessWidth) (o v : Word) : ActsAs s (.regRead wd o) (reply v s)
  | memRead (wd : AccessWidth) (ad v : Word) : ActsAs s (.memRead wd ad) (reply v s)
  | memWrite (wd : AccessWidth) (ad v : Word) :
      ActsAs s (.memWrite wd ad v) (s.setMem (Machine.memWrite s.mem ad.toNat wd.bytes v.toNat))
  | reset : ActsAs s .reset (resetBlock s)

/-- All a CMD write can do. -/
theorem issueCommand_actsAs {w : Word} {s t : State} (h : issueCommand w s = .next t) : ActsAs s (.regWrite .word 0 w) t := by
  rcases issueCommand_cases h with ⟨-, rfl⟩ | ⟨-, ⟨e, he⟩, rfl⟩ | ⟨i, -, hi, hx⟩
  · exact .ignored _ _ _
  · exact .fault w _ (by simp [Cause.raisedBy, he])
  · obtain rfl := eq_encode_of_decode hi
    rcases exec_cases hx with ⟨c, hc, ht⟩ | ⟨hok, ht⟩
    · cases ht
      exact .fault _ c (checksOf_raisedBy hc)
    · cases ht
      exact .command i hok

/-- All a step that takes an action can do. -/
theorem step_actsAs {s t : State} {a : HostAction} {rest : List HostAction} (hs : s.script = a :: rest) (h : step s = .next t) :
    ActsAs (s.setScript rest) a t := by
  rcases step_cases h with ⟨hnil, -⟩ | ⟨a', rest', hs', hact⟩
  · simp [hs] at hnil
  · obtain ⟨rfl, rfl⟩ : a = a' ∧ rest = rest' := by simpa [hs] using hs'
    rcases hact with ⟨v, rfl, hi⟩ | ⟨o, v, rfl, hlo, hhi, g, rfl⟩ | ⟨⟨wd, o, v, rfl⟩, rfl⟩ | ⟨⟨wd, o, rfl⟩, v, rfl⟩
      | ⟨wd, ad, v, rfl, -, rfl⟩ | ⟨⟨wd, ad, rfl⟩, v, rfl⟩ | ⟨rfl, rfl⟩
    · exact issueCommand_actsAs hi
    · exact .setArgs o v g hlo hhi
    · exact .ignored wd o v
    · exact .regRead wd o v
    · exact .memWrite wd ad v
    · exact .memRead wd ad v
    · exact .reset

/-! ### The invariant -/

theorem Inv.setScript {s : State} (h : Inv s) (v : List HostAction) : Inv (s.setScript v) := { h with }
theorem Inv.reply {s : State} (h : Inv s) (v : Word) : Inv (reply v s) := { h with }
theorem Inv.setArgs {s : State} (h : Inv s) (v : Args) : Inv (s.setArgs v) := { h with }

theorem Inv.setMem {s : State} (h : Inv s) {m : Memory} (hm : m.wf = true) : Inv (s.setMem m) := { h with mem_wf := hm }

theorem Inv.resetBlock {s : State} (h : Inv s) : Inv (resetBlock s) where
  mem_wf := h.mem_wf
  ddc_legal := nofun
  ddc_idle _ := rfl
  aft_legal := nofun
  aft_idle _ := rfl
  amd_legal := nofun
  amd_idle _ := rfl
  ssb_legal := nofun
  ssb_idle _ := rfl
  fault_regs := ⟨fun _ => ⟨rfl, rfl⟩, nofun⟩

/-- Fault entry touches only the fault registers, which then hold what `FaultRegsOk` asks (R201, R204). -/
theorem Inv.raiseFault {s : State} (h : Inv s) {c : Cause} {w : Word} (hc : c.raisedBy w = true) : Inv (raiseFault c w s) :=
  { h with fault_regs := ⟨nofun, fun _ => hc⟩ }

/-! ### Legal registers: what an INIT latches, and what a processing command leaves (R28 to R36) -/

theorem ddcInitEffect_legal {s : State} (h : ddcInitOk s) : (ddcInitEffect s).ddc.Legal := by
  obtain ⟨hp, hr, hsh, hti, hti', htq, htq', hd⟩ := h
  refine ⟨⟨hti, hti'⟩, ⟨htq, htq'⟩, hp, hr, hsh, fun hc => ?_, fun hc => ⟨?_, rfl⟩, hp, id⟩
  · have hc : 0 < s.args.a6.toNat := hc
    simpa [ddcInitEffect, hc] using hd hc
  · have hc : s.args.a6.toNat = 0 := hc
    simp [ddcInitEffect, hc]

theorem aftInitEffect_legal {s : State} (h : aftInitOk s) : (aftInitEffect s).aft.Legal := by
  obtain ⟨hp, hsh, hm, htc, htc', hts⟩ := h
  exact ⟨⟨htc, htc'⟩, hts, hp, hsh, hm, hp⟩

theorem amdInitEffect_legal {s : State} (h : amdInitOk s) : (amdInitEffect s).amd.Legal := h

/-- What is no larger than a register is stored uncut; so are the quotients of SSB.INIT (R166, R167). -/
theorem toNat_ofNat_of_le {x : Word} {n : Nat} (h : n ≤ x.toNat) : (BitVec.ofNat 32 n).toNat = n := by
  rw [BitVec.toNat_ofNat, Nat.mod_eq_of_lt (h.trans_lt x.isLt)]

theorem ssbInitEffect_legal {s : State} (h : ssbInitOk s) : (ssbInitEffect s).ssb.Legal := by
  obtain ⟨hf, hb, he, hbe, hle⟩ := h
  have hper : ssbPeriod s ≤ s.args.a2.toNat := Nat.div_le_self _ _
  have hshift : ssbShift s ≤ s.args.a2.toNat := (Nat.div_le_self _ _).trans hper
  have hlen : ssbLen s ≤ s.args.a1.toNat := (Nat.div_le_self _ _).trans (Nat.sub_le _ _)
  refine ⟨hb, he, hbe, hf, ?_, ?_, ?_, ?_⟩ <;>
    simp only [ssbInitEffect, State.setStatus_ssb, State.setSsb_ssb, toNat_ofNat_of_le hper, toNat_ofNat_of_le hshift,
      toNat_ofNat_of_le hlen]
  · rfl
  · rfl
  · rfl
  · exact hle

theorem ddcRun_legal {s : State} (h : s.ddc.Legal) : (ddcRun s).1.Legal := by
  rw [ddcRun, ddcLoop_unit h]
  exact ddcAfter_legal h _

theorem aftRun_legal {s : State} (h : s.aft.Legal) : (aftRun s).1.Legal := by
  rw [aftRun, aftLoop_unit h]
  exact aftAfter_legal h _

/-- AMD.DET keeps the calibration, on which alone `Amd.Legal` depends (R33). -/
theorem amdRun_legal {s : State} (h : s.amd.Legal) : (amdRun s).1.Legal := by
  rw [amdRun, amdLoop_config]
  exact h

/-! ### Every step keeps the invariant -/

/-- A command whose checks pass keeps the invariant: an INIT leaves its unit legal, a processing command keeps a legal unit legal and
memory canonical. -/
theorem Inv.effectOf {s : State} (h : Inv s) {i : Instr} (hok : ∀ p ∈ checksOf i s, p.1 = false) : Inv (effectOf i s) := by
  cases i with
  | ddcInit => exact { h with ddc_legal := fun _ => ddcInitEffect_legal ((ddcInit_passes s).1 hok), ddc_idle := nofun }
  | aftInit => exact { h with aft_legal := fun _ => aftInitEffect_legal ((aftInit_passes s).1 hok), aft_idle := nofun }
  | amdInit => exact { h with amd_legal := fun _ => amdInitEffect_legal ((amdInit_passes s).1 hok), amd_idle := nofun }
  | ssbInit => exact { h with ssb_legal := fun _ => ssbInitEffect_legal ((ssbInit_passes s).1 hok), ssb_idle := nofun }
  | ddcProc =>
    obtain ⟨hrdy, -⟩ := (ddcProc_passes s).1 hok
    exact { h with
      mem_wf := ddcLoop_wf _ _ _ _ h.mem_wf
      ddc_legal := fun _ => ddcRun_legal (h.ddc_legal hrdy)
      ddc_idle := fun hidle => absurd hrdy (Bool.eq_false_iff.1 hidle) }
  | aftMix =>
    obtain ⟨hrdy, -⟩ := (aftMix_passes s).1 hok
    exact { h with
      mem_wf := aftLoop_wf _ _ _ _ h.mem_wf
      aft_legal := fun _ => aftRun_legal (h.aft_legal hrdy)
      aft_idle := fun hidle => absurd hrdy (Bool.eq_false_iff.1 hidle) }
  | amdDet =>
    obtain ⟨hrdy, -⟩ := (amdDet_passes s).1 hok
    exact { h with
      mem_wf := amdLoop_wf _ _ _ _ h.mem_wf
      amd_legal := fun _ => amdRun_legal (h.amd_legal hrdy)
      amd_idle := fun hidle => absurd hrdy (Bool.eq_false_iff.1 hidle) }
  | ssbDet => exact { h with mem_wf := ssbLoop_wf _ _ _ _ h.mem_wf }

/-- Every action keeps the invariant. -/
theorem ActsAs.inv {s t : State} {a : HostAction} (ha : ActsAs s a t) (h : Inv s) : Inv t := by
  cases ha with
  | ignored => exact h
  | regRead => exact h.reply _
  | memRead => exact h.reply _
  | setArgs _ _ g => exact h.setArgs g
  | fault _ _ hc => exact h.raiseFault hc
  | command _ hok => exact h.effectOf hok
  | memWrite => exact h.setMem (memWrite_wf h.mem_wf _ _ _)
  | reset => exact h.resetBlock

/-- Settles O17: an idle step holds the state, any other performs one action, and every action keeps the invariant. -/
theorem everyStepKeepsTheInvariant : Obligations.EveryStepKeepsTheInvariant := by
  intro s t hinv h
  cases hs : s.script with
  | nil =>
    rw [step_idle hs] at h
    cases h
    exact hinv
  | cons a rest => exact (step_actsAs hs h).inv (hinv.setScript rest)

/-! ### STATUS -/

/-- STATUS after command `i` has its effect: an INIT sets its unit's ready bit, nothing else changes (R24). -/
def Status.afterCommand (i : Instr) (st : Status) : Status :=
  match i with
  | .ddcInit => st.setDdcRdy
  | .ddcProc => st
  | .aftInit => st.setAftRdy
  | .aftMix => st
  | .amdInit => st.setAmdRdy
  | .amdDet => st
  | .ssbInit => st.setSsbRdy
  | .ssbDet => st

theorem effectOf_status (i : Instr) (s : State) : (effectOf i s).status = s.status.afterCommand i := by
  cases i <;> rfl

/-- All an action can do to STATUS. -/
theorem ActsAs.status_cases {s t : State} {a : HostAction} (ha : ActsAs s a t) :
    t.status = s.status ∨ (∃ w, a = .regWrite .word 0 w ∧ t.status = s.status.setFault)
      ∨ (∃ i, a = .regWrite .word 0 (encode i) ∧ t.status = s.status.afterCommand i) ∨ (a = .reset ∧ t.status = Status.reset) := by
  cases ha with
  | fault w => exact .inr (.inl ⟨w, rfl, rfl⟩)
  | command i => exact .inr (.inr (.inl ⟨i, rfl, effectOf_status i s⟩))
  | reset => exact .inr (.inr (.inr ⟨rfl, rfl⟩))
  | _ => exact .inl rfl

/-- Settles O19: STATUS stays, or FAULT is set by a CMD write, or a command sets its own unit's ready bit, or Reset clears it. -/
theorem statusBitsAreSetAndClearedAsListed : Obligations.StatusBitsAreSetAndClearedAsListed := by
  intro s t h
  cases hs : s.script with
  | nil =>
    rw [step_idle hs] at h
    cases h
    simp +contextual
  | cons a rest =>
    rcases (step_actsAs hs h).status_cases with ht | ⟨w, rfl, ht⟩ | ⟨i, rfl, ht⟩ | ⟨rfl, ht⟩
    · simp +contextual [ht]
    · simp +contextual [ht, Status.setFault]
    · cases i <;> simp +contextual [ht, encode, Status.afterCommand, Status.setDdcRdy, Status.setAftRdy, Status.setAmdRdy,
        Status.setSsbRdy]
    · simp [ht, Status.reset]

/-! ### Which command owns which part of the state -/

theorem ddcNextSlot_config (d : Ddc) : ∃ w, ddcNextSlot d = { d with wpos := w } := by
  unfold ddcNextSlot
  split
  · exact ⟨_, rfl⟩
  · exact ⟨d.wpos, rfl⟩

/-- DDC.PROC changes no DDC register but the cursor and the write index, in any state of the unit (R29, R30). -/
theorem ddcRun_config (s : State) : { (ddcRun s).1 with lutpos := s.ddc.lutpos, wpos := s.ddc.wpos } = s.ddc :=
  forLoop_invariant (P := fun _ (x : Ddc × Memory) => { x.1 with lutpos := s.ddc.lutpos, wpos := s.ddc.wpos } = s.ddc) rfl
    (fun k _ x hx => by
      obtain ⟨w, h⟩ := ddcNextSlot_config (ddcAdvance x.1)
      rw [ddcOutput, h]
      exact hx)

/-- AFT.MIX changes no AFT register but the cursor (R32). -/
theorem aftRun_config (s : State) : { (aftRun s).1 with lutpos := s.aft.lutpos } = s.aft :=
  forLoop_invariant (P := fun _ (x : Aft × Memory) => { x.1 with lutpos := s.aft.lutpos } = s.aft) rfl (fun _ _ _ hx => hx)

/-- AMD.DET changes no AMD register but the filter state (R33). -/
theorem amdRun_config (s : State) : { (amdRun s).1 with state := s.amd.state } = s.amd := by
  rw [amdRun, amdLoop_config]

section
variable {i : Instr} {s : State}

theorem owner_of_ddc_config_ne (h : { (effectOf i s).ddc with lutpos := s.ddc.lutpos, wpos := s.ddc.wpos } ≠ s.ddc) : i = .ddcInit := by
  cases i with
  | ddcInit => rfl
  | ddcProc => exact absurd (ddcRun_config s) h
  | _ => exact absurd rfl h

theorem owner_of_ddc_ne (h : (effectOf i s).ddc ≠ s.ddc) : i = .ddcInit ∨ i = .ddcProc := by
  cases i with
  | ddcInit => exact .inl rfl
  | ddcProc => exact .inr rfl
  | _ => exact absurd rfl h

theorem owner_of_aft_config_ne (h : { (effectOf i s).aft with lutpos := s.aft.lutpos } ≠ s.aft) : i = .aftInit := by
  cases i with
  | aftInit => rfl
  | aftMix => exact absurd (aftRun_config s) h
  | _ => exact absurd rfl h

theorem owner_of_aft_ne (h : (effectOf i s).aft ≠ s.aft) : i = .aftInit ∨ i = .aftMix := by
  cases i with
  | aftInit => exact .inl rfl
  | aftMix => exact .inr rfl
  | _ => exact absurd rfl h

theorem owner_of_amd_config_ne (h : { (effectOf i s).amd with state := s.amd.state } ≠ s.amd) : i = .amdInit := by
  cases i with
  | amdInit => rfl
  | amdDet => exact absurd (amdRun_config s) h
  | _ => exact absurd rfl h

theorem owner_of_amd_ne (h : (effectOf i s).amd ≠ s.amd) : i = .amdInit ∨ i = .amdDet := by
  cases i with
  | amdInit => exact .inl rfl
  | amdDet => exact .inr rfl
  | _ => exact absurd rfl h

theorem owner_of_ssb_ne (h : (effectOf i s).ssb ≠ s.ssb) : i = .ssbInit := by
  cases i with
  | ssbInit => rfl
  | _ => exact absurd rfl h

theorem owner_of_mem_ne (h : (effectOf i s).mem ≠ s.mem) : i = .ddcProc ∨ i = .aftMix ∨ i = .amdDet ∨ i = .ssbDet := by
  cases i with
  | ddcProc => simp
  | aftMix => simp
  | amdDet => simp
  | ssbDet => simp
  | _ => exact absurd rfl h

end

/-- Settles O20: of the actions, only a command changes a unit's registers, and then its owners are the ones listed. -/
theorem registersChangeOnlyByTheirOwnCommands : Obligations.RegistersChangeOnlyByTheirOwnCommands := by
  intro s t a rest hs hne h
  cases step_actsAs hs h with
  | ignored => simp
  | regRead => simp [reply]
  | memRead => simp [reply]
  | setArgs o v g hlo hhi => simp [hlo, hhi]
  | fault => simp
  | memWrite => simp
  | reset => exact absurd rfl hne
  | command i =>
    obtain ⟨-, -, -, hargs, -⟩ := effectOf_keeps i (s.setScript rest)
    exact ⟨fun hc => absurd hargs hc,
      fun hc => congrArg lineCMD (owner_of_ddc_config_ne hc),
      fun hc => (owner_of_ddc_ne hc).imp (congrArg lineCMD) (congrArg lineCMD),
      fun hc => congrArg lineCMD (owner_of_aft_config_ne hc),
      fun hc => (owner_of_aft_ne hc).imp (congrArg lineCMD) (congrArg lineCMD),
      fun hc => congrArg lineCMD (owner_of_amd_config_ne hc),
      fun hc => (owner_of_amd_ne hc).imp (congrArg lineCMD) (congrArg lineCMD),
      fun hc => congrArg lineCMD (owner_of_ssb_ne hc),
      fun _ => ⟨encode i, rfl⟩,
      fun hc => .inr ((owner_of_mem_ne hc).imp (congrArg lineCMD)
        (Or.imp (congrArg lineCMD) (Or.imp (congrArg lineCMD) (congrArg lineCMD))))⟩

/-! ### The words of STATUS and FCAUSE, and the register map -/

/-- The STATUS word bit by bit (R24). -/
theorem Status.getLsbD_word (st : Status) (k : Nat) : st.word.getLsbD k =
    if k < 4 then [st.ddcRdy, st.aftRdy, st.amdRdy, st.ssbRdy].getD k false else decide (k = 31) && st.fault := by
  have hword : st.word.getLsbD k = (BitVec.ofBool st.fault ++ 0#27 ++ BitVec.ofBool st.ssbRdy ++ BitVec.ofBool st.amdRdy
    ++ BitVec.ofBool st.aftRdy ++ BitVec.ofBool st.ddcRdy).getLsbD k := rfl
  rw [hword]
  simp only [BitVec.getLsbD_append, BitVec.getLsbD_ofBool]
  match k with
  | 0 => simp
  | 1 => simp
  | 2 => simp
  | 3 => simp
  | j + 4 =>
    by_cases hj : j < 27
    · simp [hj, hj.ne]
    · simp [hj, show j - 27 = 0 ↔ j = 27 by omega]

/-- Settles O18: the named bits are read off the STATUS word, those between hold nothing; the codes are R201's. -/
theorem statusAndCauseWordsFollowTheTables : Obligations.StatusAndCauseWordsFollowTheTables := by
  refine ⟨fun st => ?_, rfl⟩
  have hgap : ∀ k, 4 ≤ k → k ≤ 30 → st.word.getLsbD k = false := fun k hlo hhi => by
    simp [Status.getLsbD_word, show ¬ k < 4 by omega, show k ≠ 31 by omega]
  refine ⟨?_, ?_, ?_, ?_, hgap, ?_⟩ <;> simp only [Status.getLsbD_word] <;> rfl

/-- A register is found at its own offset (R40). -/
theorem Reg.ofOffset_offset (r : Reg) : Reg.ofOffset r.offset = some r := by
  cases r <;> rfl

/-- So the map has no overlap. -/
theorem Reg.offset_injective : Function.Injective Reg.offset := fun r r' h =>
  Option.some_injective _ (by rw [← Reg.ofOffset_offset r, h, Reg.ofOffset_offset r'])

theorem Reg.offset_aligned (r : Reg) : r.offset % 4 = 0 ∧ r.offset ≤ 0x118 := by
  cases r <;> decide

/-- The words of register space with no register, counted in words (R187). -/
theorem Reg.ofOffset_word_eq_none_iff : ∀ n ≤ 71, Reg.ofOffset (4 * n) = none ↔
    (12 ≤ n ∧ n ≤ 15) ∨ (25 ≤ n ∧ n ≤ 31) ∨ (38 ≤ n ∧ n ≤ 47) ∨ (55 ≤ n ∧ n ≤ 63) ∨ n = 71 := by
  decide

/-- Settles O23: the offset finds its register again, so no two registers share one; the gaps are counted word by word. -/
theorem registerMapHasNoOverlap : Obligations.RegisterMapHasNoOverlap := by
  refine ⟨fun _ _ h => Reg.offset_injective h, fun r => ?_, fun o hal hle => ?_⟩
  · obtain ⟨hal, hle⟩ := Reg.offset_aligned r
    exact ⟨hal, hle, Reg.ofOffset_offset r⟩
  · obtain ⟨n, rfl⟩ := Nat.dvd_of_mod_eq_zero hal
    rw [Reg.ofOffset_word_eq_none_iff n (by omega)]
    omega

end Sys2Proof.Machine
end

section
/-! PROOFS. The family 20_memory: elements byte by byte (spec/20_memory.md R62, R63), a canonical memory is its bytes (R60), and two runs of a
processing command on memories that agree on what it reads (R81). -/

namespace Sys2Proof.Machine

/-! ### Elements and bytes -/

/-- An element is the sum of its bytes, each weighted by its place (R62). -/
theorem memRead_eq_sum (m : Memory) (a n : Nat) :
    memRead m a n = ∑ k ∈ Finset.range n, (m.readByte (a + k)).toNat * 2 ^ (8 * k) := by
  induction n with
  | zero => rfl
  | succ n ih => rw [memRead, ih, Finset.sum_range_succ]

/-- Byte `k` of an element just written (R63). -/
theorem toNat_readByte_memWrite {m : Memory} (h : m.wf = true) {a n k : Nat} (hn : a + n ≤ 4294967296) (hk : k < n) (v : Nat) :
    ((memWrite m a n v).readByte (a + k)).toNat = v / 2 ^ (8 * k) % 256 := by
  rw [readByte_memWrite h hn, if_pos ⟨by omega, by omega⟩, Nat.add_sub_cancel_left, BitVec.toNat_ofNat]
  exact Nat.mod_mod _ 256

/-- A canonical list holds no byte at or past 2^32 (R60). -/
theorem readCell_past_top {lo : Option Nat} {l : List Host.Cell} (h : cellsAbove lo l = true) {a : Nat} (ha : 4294967296 ≤ a) :
    readCell l a = Config.unlistedByte := by
  induction l generalizing lo with
  | nil => rfl
  | cons c rest ih =>
    obtain ⟨x, v⟩ := c
    obtain ⟨-, hx, -, hrest⟩ := (cellsAbove_cons ..).1 h
    simpa [readCell, show ¬ a < x by omega, show a ≠ x by omega] using ih hrest

/-- What a byte reads as after the same element is written to two memories that agree on it, unless the write covers it. -/
theorem readByte_memWrite_congr {m m' : Memory} (h : m.wf = true) (h' : m'.wf = true) {addr n : Nat} (hn : addr + n ≤ 4294967296)
    (v : Nat) {c : Nat} (hc : ¬ InSpan c addr n → m.readByte c = m'.readByte c) :
    (memWrite m addr n v).readByte c = (memWrite m' addr n v).readByte c := by
  rw [readByte_memWrite h hn, readByte_memWrite h' hn]
  split
  · rfl
  · next hout => exact hc hout

/-- Settles O29: the bytes, the frame and the canonical form of a write, its read-back, and a read as the sum of its bytes. -/
theorem memoryElementsAreLittleEndian : Obligations.MemoryElementsAreLittleEndian := by
  intro m a n v h hn hv
  refine ⟨memWrite_wf h a n v, fun k hk => toNat_readByte_memWrite h hn hk v, fun c hc => readByte_memWrite_outside h hn v hc, ?_,
    memRead_eq_sum m a n⟩
  rw [memRead_memWrite h hn, Nat.mod_eq_of_lt hv]

/-- Settles O30: I and Q are the two halves of the word that WriteIQ stores. -/
theorem iqSamplesReadBack : Obligations.IQSamplesReadBack :=
  fun _ _ i q h ha => ⟨iAt_writeIQ h ha i q, qAt_writeIQ h ha i q⟩

/-- Settles O31: past 2^32 both read as unlisted, and a canonical list is determined by what it reads as. -/
theorem canonicalMemoriesWithEqualBytesAreEqual : Obligations.CanonicalMemoriesWithEqualBytesAreEqual := by
  intro m m' h h' hr
  refine Memory.ext_readByte h h' fun a => ?_
  by_cases ha : a < 4294967296
  · exact hr a ha
  · exact (readCell_past_top h (by omega)).trans (readCell_past_top h' (by omega)).symm

/-! ### Two runs that read the same bytes (R81)

The two memories agree on what the command reads and, after `k` outputs, also on those outputs. The outputs may lie over what is read:
an output is the same in both, so the memories go on agreeing there. -/

/-- Canonical memories that agree on the bytes `reads` and on the first `k` outputs, output `j` being the `size` bytes from `slot j`. -/
structure Agree (reads : Nat → Prop) (slot : Nat → Nat) (size k : Nat) (m m' : Memory) : Prop where
  wf : m.wf = true
  wf' : m'.wf = true
  onReads : ∀ a, reads a → m.readByte a = m'.readByte a
  onOutputs : ∀ j < k, ∀ a, InSpan a (slot j) size → m.readByte a = m'.readByte a

section
variable {reads : Nat → Prop} {slot : Nat → Nat} {size k : Nat} {m m' : Memory}

/-- Before the first output. -/
theorem Agree.start (h : m.wf = true) (h' : m'.wf = true) (hr : ∀ a, reads a → m.readByte a = m'.readByte a) :
    Agree reads slot size 0 m m' :=
  ⟨h, h', hr, nofun⟩

/-- One more output, the same in both. -/
theorem Agree.write (h : Agree reads slot size k m m') (hfit : slot k + size ≤ 4294967296) (v : Nat) :
    Agree reads slot size (k + 1) (memWrite m (slot k) size v) (memWrite m' (slot k) size v) where
  wf := memWrite_wf h.wf _ _ _
  wf' := memWrite_wf h.wf' _ _ _
  onReads a ha := readByte_memWrite_congr h.wf h.wf' hfit v fun _ => h.onReads a ha
  onOutputs j hj a ha := readByte_memWrite_congr h.wf h.wf' hfit v fun hout => by
    have hjk : j ≠ k := fun e => hout (e ▸ ha)
    exact h.onOutputs j (by omega) a ha

/-- Outputs one after the other fill the span from the first. -/
theorem Agree.onSpan {dst n : Nat} (h : Agree reads (fun j => dst + size * j) size n m m') {a : Nat} (ha : InSpan a dst (size * n)) :
    m.readByte a = m'.readByte a := by
  obtain ⟨hlo, hhi⟩ := ha
  have hsize : 0 < size := Nat.pos_of_ne_zero fun h0 => by rw [h0, Nat.zero_mul] at hhi; omega
  have hdiv := Nat.div_add_mod (a - dst) size
  have hmod := Nat.mod_lt (a - dst) hsize
  exact h.onOutputs ((a - dst) / size) (Nat.div_lt_of_lt_mul (by omega)) a ⟨by omega, by omega⟩

end

/-- Both halves of sample `k` lie in a range of `n` IQSamples. -/
theorem iqAt_congr {m m' : Memory} {first n k : Nat} (h : ∀ a, InSpan a first (4 * n) → m.readByte a = m'.readByte a) (hk : k < n) :
    iAt m (first + 4 * k) = iAt m' (first + 4 * k) ∧ qAt m (first + 4 * k) = qAt m' (first + 4 * k) :=
  ⟨iAt_congr fun _ _ _ => h _ ⟨by omega, by omega⟩, qAt_congr fun _ _ _ => h _ ⟨by omega, by omega⟩⟩

/-! ### Each command's loop keeps the agreement -/

section
variable {s : State} {m m' : Memory}

/-- An output of a command whose destination passes its check ends at or below 2^32 (R67). -/
theorem dstOk_fits {n size k : Nat} (h : dstOk s n size) (hk : k < n) : opDst s + size * k + size ≤ 4294967296 := by
  obtain ⟨-, hroom⟩ := h (Nat.zero_lt_of_lt hk)
  calc opDst s + size * k + size = s.args.a2.toNat + size * (k + 1) := by rw [opDst, Nat.mul_succ, Nat.add_assoc]
    _ ≤ s.args.a2.toNat + size * n := Nat.add_le_add_left (Nat.mul_le_mul_left size hk) _
    _ ≤ 4294967296 := hroom

/-- The group of output `k` lies in the complete groups of the input (R121). -/
theorem ddcReads_of_group {k a : Nat} (hk : k < ddcCount s)
    (ha : InSpan a (opBegin s + 2 * (k * s.ddc.ratio.toNat)) (2 * s.ddc.ratio.toNat)) : ddcReads s a := by
  have hle : (k + 1) * s.ddc.ratio.toNat ≤ ddcCount s * s.ddc.ratio.toNat := Nat.mul_le_mul_right _ hk
  rw [Nat.succ_mul] at hle
  exact .inl ⟨by omega, by omega⟩

/-- A group's sums are the same in both, and so is its slot, which the registers alone give (R119). -/
theorem ddcLoop_agree (hd : s.ddc.Legal) (hdst : s.ddc.cap.toNat = 0 → dstOk s (ddcCount s) 4) {k : Nat} (hk : k ≤ ddcCount s)
    (h0 : Agree (ddcReads s) (ddcSlotAddr s.ddc (opDst s)) 4 0 m m') :
    Agree (ddcReads s) (ddcSlotAddr s.ddc (opDst s)) 4 k (forLoop (ddcOutput (opBegin s) (opDst s)) k (s.ddc, m)).2
      (forLoop (ddcOutput (opBegin s) (opDst s)) k (s.ddc, m')).2 := by
  induction k with
  | zero => exact h0
  | succ k ih =>
    have hag := ih (by omega)
    obtain ⟨-, -, hp, -⟩ := ddcAfter_legal hd k
    rw [ddcLoop_mem_succ hd, ddcLoop_mem_succ hd, ddcGroup_congr hp
      (fun a ha => hag.onReads a (ddcReads_of_group hk ha)) (fun a ha => hag.onReads a (.inr (.inl ha)))
      (fun a ha => hag.onReads a (.inr (.inr ha)))]
    exact hag.write (ddcSlotAddr_fits hd (fun hc hn => (hdst hc hn).2) hk) _

/-- Sample `k` and the coefficients at the cursor are the same in both, and so is their product. -/
theorem aftLoop_agree (hf : s.aft.Legal) (hdst : dstOk s (elemCount s 4) 4) {k : Nat} (hk : k ≤ elemCount s 4)
    (h0 : Agree (aftReads s) (fun j => opDst s + 4 * j) 4 0 m m') :
    Agree (aftReads s) (fun j => opDst s + 4 * j) 4 k (forLoop (aftOutput (opBegin s) (opDst s)) k (s.aft, m)).2
      (forLoop (aftOutput (opBegin s) (opDst s)) k (s.aft, m')).2 := by
  induction k with
  | zero => exact h0
  | succ k ih =>
    have hag := ih (by omega)
    obtain ⟨hi, hq⟩ := iqAt_congr (fun a ha => hag.onReads a (.inl ha)) hk
    rw [aftLoop_mem_succ hf, aftLoop_mem_succ hf]
    dsimp only
    rw [hi, hq, aftProduct_congr (aftAfter_legal hf k) _ _ (fun a ha => hag.onReads a (.inr (.inl ha)))
      (fun hm a ha => hag.onReads a (.inr (.inr ⟨hm, ha⟩)))]
    exact hag.write (k := k) (dstOk_fits hdst hk) _

/-- The filter state is read back from the unit, so the units must agree along with the memories. -/
theorem amdLoop_agree (hdst : dstOk s (elemCount s 4) 2) (h0 : Agree (amdReads s) (fun j => opDst s + 2 * j) 2 0 m m') :
    (forLoop (amdOutput (opBegin s) (opDst s)) (elemCount s 4) (s.amd, m)).1
        = (forLoop (amdOutput (opBegin s) (opDst s)) (elemCount s 4) (s.amd, m')).1
      ∧ Agree (amdReads s) (fun j => opDst s + 2 * j) 2 (elemCount s 4)
        (forLoop (amdOutput (opBegin s) (opDst s)) (elemCount s 4) (s.amd, m)).2
        (forLoop (amdOutput (opBegin s) (opDst s)) (elemCount s 4) (s.amd, m')).2 := by
  refine forLoop_related (P := fun k (x y : Amd × Memory) => x.1 = y.1 ∧ Agree (amdReads s) (fun j => opDst s + 2 * j) 2 k x.2 y.2)
    ⟨rfl, h0⟩ ?_
  rintro k hk ⟨u, mx⟩ ⟨-, my⟩ ⟨rfl, hag⟩
  obtain ⟨hi, hq⟩ := iqAt_congr hag.onReads hk
  simp only [amdOutput, hi, hq, true_and]
  exact hag.write (k := k) (dstOk_fits hdst hk) _

/-- The look-back slot of a sample of the range is a slot of the ring (R169). -/
theorem ssbLookBack_inRing (hu : s.ssb.Legal) (hok : ssbDetOk s) {k : Nat} (hk : k < elemCount s 4) :
    ssbLookBack (ssbSlot s.ssb (opBegin s + 4 * k)) s.ssb.shift.toNat s.ssb.len.toNat < s.ssb.len.toNat := by
  obtain ⟨hb, he, -, -, -, -, hlen, hshift⟩ := hu
  obtain ⟨-, ⟨-, ha0, ha1⟩, hlo, hhi, -⟩ := hok
  refine ssbLookBack_lt ?_ hshift
  simp only [elemCount, opBegin, opEnd] at hk
  simp only [ssbSlot, opBegin, hlen]
  omega

/-- I of sample `k` and Q of its look-back slot are the same in both. -/
theorem ssbLoop_agree (hu : s.ssb.Legal) (hok : ssbDetOk s) (h0 : Agree (ssbReads s) (fun j => opDst s + 2 * j) 2 0 m m') :
    Agree (ssbReads s) (fun j => opDst s + 2 * j) 2 (elemCount s 4) (forLoop (ssbOutput s.ssb (opBegin s) (opDst s)) (elemCount s 4) m)
      (forLoop (ssbOutput s.ssb (opBegin s) (opDst s)) (elemCount s 4) m') := by
  refine forLoop_related (P := Agree (ssbReads s) (fun j => opDst s + 2 * j) 2) h0 fun k hk mx my hag => ?_
  have hv : ssbValue s.ssb mx (opBegin s + 4 * k) = ssbValue s.ssb my (opBegin s + 4 * k) :=
    ssbValue_congr (fun a ha => hag.onReads a (.inl ⟨k, hk, ha⟩))
      (fun a ha => hag.onReads a (.inr ⟨_, ssbLookBack_inRing hu hok hk, ha⟩))
  obtain ⟨-, -, -, -, hdst⟩ := hok
  rw [ssbOutput, ssbOutput, hv]
  exact hag.write (k := k) (dstOk_fits hdst hk) _

end

/-- Settles O58: each command completes on both memories, and its loop keeps their agreement on what it reads and what it has written. -/
theorem processingReadsOnlyItsFootprint : Obligations.ProcessingReadsOnlyItsFootprint := by
  intro s m hs hm
  refine ⟨fun hd hok hr => ?_, fun hf hok hr => ?_, fun _ hok hr => ?_, fun hu hok hr => ?_⟩
  · have ⟨_, _, hdst⟩ := hok
    refine ⟨_, _, exec_ddcProc_ok hok, exec_ddcProc_ok (s := { s with mem := m }) hok, ?_, fun a ⟨k, hk, ha⟩ => ?_⟩
    · exact (ddcLoop_unit hd _ _ _ _).trans (ddcLoop_unit hd _ _ _ _).symm
    · exact (ddcLoop_agree hd hdst le_rfl (.start hs hm hr)).onOutputs k hk a ha
  · have ⟨_, _, hdst⟩ := hok
    refine ⟨_, _, exec_aftMix_ok hok, exec_aftMix_ok (s := { s with mem := m }) hok, ?_, fun a ha => ?_⟩
    · exact (aftLoop_unit hf _ _ _ _).trans (aftLoop_unit hf _ _ _ _).symm
    · exact (aftLoop_agree hf hdst le_rfl (.start hs hm hr)).onSpan ha
  · have ⟨_, _, hdst⟩ := hok
    obtain ⟨hunit, hag⟩ := amdLoop_agree hdst (.start hs hm hr)
    exact ⟨_, _, exec_amdDet_ok hok, exec_amdDet_ok (s := { s with mem := m }) hok, hunit, fun _ ha => hag.onSpan ha⟩
  · exact ⟨_, _, exec_ssbDet_ok hok, exec_ssbDet_ok (s := { s with mem := m }) hok,
      fun _ ha => (ssbLoop_agree hu hok (.start hs hm hr)).onSpan ha⟩

end Sys2Proof.Machine
end

section
/-! PROOFS. The family 30_encoding: a command and its word determine each other (spec/30_encoding.md R90 to R93), a pseudo-operation is its
argument writes and its command (R101, R102), and a command with no output changes nothing (R95, 40_ddc.md R114). -/

namespace Sys2Proof.Machine

/-! ### Words and commands -/

/-- The family `EncodingFields` holds of every command. -/
theorem encodingFields (i : Instr) : Laws.EncodingFields.Statement i :=
  match i with
  | .ddcInit => Laws.EncodingFields.ddcInit
  | .ddcProc => Laws.EncodingFields.ddcProc
  | .aftInit => Laws.EncodingFields.aftInit
  | .aftMix => Laws.EncodingFields.aftMix
  | .amdInit => Laws.EncodingFields.amdInit
  | .amdDet => Laws.EncodingFields.amdDet
  | .ssbInit => Laws.EncodingFields.ssbInit
  | .ssbDet => Laws.EncodingFields.ssbDet

@[simp] theorem decode_encode (i : Instr) : decode (encode i) = .ok i := by
  obtain ⟨-, -, hdecode, -⟩ := encodingFields i
  exact hdecode

theorem decode_eq_ok_iff (w : Word) (i : Instr) : decode w = .ok i ↔ w = encode i :=
  ⟨eq_encode_of_decode, fun h => h ▸ decode_encode i⟩

/-- Settles O2: a decoded word is its command's word (`eq_encode_of_decode`), and that word decodes to the command. -/
theorem decodeInvertsEncode : Obligations.DecodeInvertsEncode :=
  fun w i => (decode_eq_ok_iff w i).trans eq_comm

/-- Settles O1: each literal of R93's table is `encode` of its command. -/
theorem decodeSelectsExactlyTheTableWords : Obligations.DecodeSelectsExactlyTheTableWords :=
  fun w => ⟨decode_eq_ok_iff w .ddcInit, decode_eq_ok_iff w .ddcProc, decode_eq_ok_iff w .aftInit, decode_eq_ok_iff w .aftMix,
    decode_eq_ok_iff w .amdInit, decode_eq_ok_iff w .amdDet, decode_eq_ok_iff w .ssbInit, decode_eq_ok_iff w .ssbDet⟩

/-- Settles O3: the first four words are their commands' words, the other three are decoded as they stand. -/
theorem wordsFromFieldsDecode : Obligations.WordsFromFieldsDecode :=
  ⟨decode_encode .ddcInit, decode_encode .aftMix, decode_encode .amdDet, decode_encode .ssbInit, rfl, rfl, rfl⟩

/-! ### Performing a pseudo-operation, line by line -/

/-- A word given to `WR` as a number is that word again (R100). -/
theorem lineWR_toNat (r : Reg) (v : Word) : lineWR r (v.toNat : Int) = .regWrite .word (BitVec.ofNat 32 r.offset) v := by
  rw [lineWR, ofNat_umod, BitVec.ofInt_natCast, BitVec.ofNat_toNat, BitVec.setWidth_eq]

/-- A write to the offset of any register but CMD (R181). -/
theorem hostRegWrite_offset {r : Reg} (hr : r ≠ .cmd) (v : Word) (s : State) :
    hostRegWrite .word (BitVec.ofNat 32 r.offset) v s = .next (s.setArgs (writeArg r v s.args)) := by
  obtain ⟨hal, hle⟩ := r.offset_aligned
  have ho : (BitVec.ofNat 32 r.offset).toNat = r.offset := Nat.mod_eq_of_lt (by omega)
  rw [hostRegWrite, ho, if_pos ((regAccess_iff ..).2 ⟨rfl, hal, by omega⟩), Reg.ofOffset_offset]
  split
  · next h => exact absurd (Option.some_injective _ h) hr
  · next h => rw [Option.some_injective _ h]
  · next h => cases h

/-- A command issued with no fault standing runs (R183). -/
theorem issueCommand_encode {s : State} (hf : s.status.fault = false) (i : Instr) : issueCommand (encode i) s = exec i s := by
  simp [issueCommand, hf]

theorem run_succ_of_step {M : Host.Core} {s t : M.State} (h : M.step s = .next t) (k : Nat) : M.run (k + 1) s = M.run k t := by
  rw [Host.Core.run, h]

theorem run_one (M : Host.Core) (s : M.State) : M.run 1 s = M.step s := by
  rw [Host.Core.run]
  cases M.step s <;> rfl

/-- A run whose next line is `WR` to a register other than CMD performs it and goes on. -/
theorem run_lineWR {s : State} {r : Reg} {v : Word} {rest : List HostAction} (hs : s.script = lineWR r (v.toNat : Int) :: rest)
    (hr : r ≠ .cmd) (k : Nat) :
    Host.Core.run core (k + 1) s = Host.Core.run core k ((s.setScript rest).setArgs (writeArg r v s.args)) := by
  have hstep : step s = .next ((s.setScript rest).setArgs (writeArg r v s.args)) := by
    rw [lineWR_toNat] at hs
    rw [step_cons hs]
    exact hostRegWrite_offset hr v _
  exact run_succ_of_step (M := core) hstep k

/-- A run of one `CMD` line is its command's meaning. -/
theorem run_lineCMD {s : State} {i : Instr} {rest : List HostAction} (hs : s.script = lineCMD i :: rest)
    (hf : s.status.fault = false) : Host.Core.run core 1 s = exec i (s.setScript rest) :=
  (run_one core s).trans ((step_cmdWrite hs).trans (issueCommand_encode (s := s.setScript rest) hf i))

/-- The pseudo-operation of a command with three operands (R101). -/
theorem pseudoOp_three {i : Instr} (hi : operandCount i = 3) (x y z : Int) :
    pseudoOp i [some x, some y, some z] = some [lineWR .a0 x, lineWR .a1 y, lineWR .a2 z, lineCMD i] :=
  if_pos hi.symm

/-- The four actions of such a pseudo-operation are performed one by one; the command runs on what the argument writes left. -/
theorem run_pseudoOp_three {s : State} {i : Instr} {b e d : Word} {rest : List HostAction} (hs : s.script =
      lineWR .a0 (b.toNat : Int) :: lineWR .a1 (e.toNat : Int) :: lineWR .a2 (d.toNat : Int) :: lineCMD i :: rest)
    (hf : s.status.fault = false) :
    Host.Core.run core 4 s = exec i { s with args := { s.args with a0 := b, a1 := e, a2 := d }, script := rest } := by
  refine (run_lineWR hs (by decide) 3).trans ?_
  refine (run_lineWR rfl (by decide) 2).trans ?_
  refine (run_lineWR rfl (by decide) 1).trans ?_
  exact run_lineCMD rfl hf

/-- Settles O6: each of the four commands has three operands, and the run of such a pseudo-operation is `run_pseudoOp_three`. -/
theorem pseudoOperationLoadsOperandsAndRuns : Obligations.PseudoOperationLoadsOperandsAndRuns := by
  intro s i b e d rest hi hf
  have hcount : ∀ j ∈ [Instr.ddcProc, .aftMix, .amdDet, .ssbDet], operandCount j = 3 := by decide
  refine ⟨_, pseudoOp_three (hcount i hi) _ _ _, rfl, ?_, run_pseudoOp_three rfl hf⟩
  rw [lineWR_toNat, lineWR_toNat, lineWR_toNat]
  rfl

/-! ### A command with no output -/

theorem elemCount_of_empty {s : State} (h : s.args.a0 = s.args.a1) (size : Nat) : elemCount s size = 0 := by
  rw [elemCount, opEnd, opBegin, h, Nat.sub_self, Nat.zero_div]

/-- With no output there is nothing to check of the destination (R66, R67). -/
theorem dstOk_of_no_output {n : Nat} (hn : n = 0) (s : State) (size : Nat) : dstOk s n size := fun hpos => absurd hn hpos.ne'

theorem ddcProcEffect_of_no_output {s : State} (h : ddcCount s = 0) : ddcProcEffect s = s := by
  rw [ddcProcEffect, ddcRun, h]
  rfl

theorem aftMixEffect_of_no_output {s : State} (h : elemCount s 4 = 0) : aftMixEffect s = s := by
  rw [aftMixEffect, aftRun, h]
  rfl

theorem amdDetEffect_of_no_output {s : State} (h : elemCount s 4 = 0) : amdDetEffect s = s := by
  rw [amdDetEffect, amdRun, h]
  rfl

theorem ssbDetEffect_of_no_output {s : State} (h : elemCount s 4 = 0) : ssbDetEffect s = s := by
  rw [ssbDetEffect, ssbRun, h]
  rfl

/-- Settles O59: with no output every check passes whatever the destination is, and the effect's loop runs no iteration. -/
theorem emptyRangesChangeNothing : Obligations.EmptyRangesChangeNothing := by
  refine fun s => ⟨fun hrdy hrange hshort => ?_, fun hrdy hrange hempty => ?_, fun hrdy hrange hempty => ?_,
    fun hrdy hrange hempty hlo hhi => ?_⟩
  · have hn : ddcCount s = 0 := Nat.div_eq_of_lt hshort
    rw [exec_ddcProc_ok ⟨hrdy, hrange, fun _ => dstOk_of_no_output hn s 4⟩, ddcProcEffect_of_no_output hn]
  · have hn := elemCount_of_empty hempty 4
    rw [exec_aftMix_ok ⟨hrdy, hrange, dstOk_of_no_output hn s 4⟩, aftMixEffect_of_no_output hn]
  · have hn := elemCount_of_empty hempty 4
    rw [exec_amdDet_ok ⟨hrdy, hrange, dstOk_of_no_output hn s 2⟩, amdDetEffect_of_no_output hn]
  · have hn := elemCount_of_empty hempty 4
    rw [exec_ssbDet_ok ⟨hrdy, hrange, hlo, hhi, dstOk_of_no_output hn s 2⟩, ssbDetEffect_of_no_output hn]

end Sys2Proof.Machine
end

section
/-! PROOFS. The family 40_ddc: the fault a command raises when its failing checks share a cause, DDC.INIT (spec/40_ddc.md R111), and DDC.PROC
output by output: completion and frame (R113, R119), splitting (R115, R121) and the values written (R116 to R118, R122). -/

namespace Sys2Proof.Machine

/-! ### The fault raised -/

/-- A command some check of which fails, every failing one with cause `c`, faults with `c`. -/
theorem exec_fault_of_checks {i : Instr} {s : State} {c : Cause} (hfail : ¬ ∀ p ∈ checksOf i s, p.1 = false)
    (hcause : ∀ c', (true, c') ∈ checksOf i s → c' = c) : exec i s = .next (raiseFault c (encode i) s) := by
  rcases exec_cases (rfl : exec i s = exec i s) with ⟨c', hc', h⟩ | ⟨hpass, -⟩
  · rw [h, hcause c' hc']
  · exact absurd hpass hfail

/-- The first failing check decides the fault (R207). -/
theorem exec_fault_of_firstFailing {i : Instr} {s : State} {c : Cause} (h : firstFailing (checksOf i s) = some c) :
    exec i s = .next (raiseFault c (encode i) s) :=
  (exec_eq_runCommand i s).trans (runCommand_fault h)

theorem toNat_eq_zero_iff (w : Word) : w.toNat = 0 ↔ w = 0 := (BitVec.toNat_eq (y := 0#32)).symm

theorem toNat_pos_iff (w : Word) : w.toNat > 0 ↔ ¬ w = 0 := Nat.pos_iff_ne_zero.trans (toNat_eq_zero_iff w).not

/-- Settles O10: the first three causes are read off the list of checks; past them every failing check has cause CFG_ADDR. -/
theorem ddcInitReportsItsFirstFailingCheck : Obligations.DdcInitReportsItsFirstFailingCheck := by
  intro s
  simp only [ne_eq, ← toNat_eq_zero_iff]
  refine ⟨fun hp => ?_, fun hp hr => ?_, fun hp hr hsh => ?_, fun hp hr hsh haddr => ?_⟩
  · exact exec_fault_of_firstFailing (by simp [checksOf, ddcInitChecks, hp])
  · exact exec_fault_of_firstFailing (by simp [checksOf, ddcInitChecks, hp, hr])
  · exact exec_fault_of_firstFailing (by simp [checksOf, ddcInitChecks, hp, hr, hsh])
  · refine exec_fault_of_checks (fun hpass => ?_) fun c hc => ?_
    · obtain ⟨-, -, -, hti, hti', htq, htq', hring⟩ := (ddcInit_passes s).1 hpass
      omega
    · simp only [checksOf, ddcInitChecks, List.mem_cons, List.not_mem_nil, Prod.mk.injEq, true_eq_decide_iff, or_false] at hc
      rcases hc with ⟨h, -⟩ | ⟨h, -⟩ | ⟨h, -⟩ | ⟨-, rfl⟩ | ⟨-, rfl⟩
      · exact absurd h hp
      · exact absurd h hr
      · exact absurd h (by simpa using hsh)
      · rfl
      · rfl

/-- A ready unit's processing command one of whose checks fails faults with RANGE, the cause of every check but the first. -/
theorem exec_fault_range_of_ready {i : Instr} {s : State} {rdy : Bool} {rest : List (Bool × Cause)}
    (hi : checksOf i s = (!rdy, .notReady) :: rest) (hrest : ∀ p ∈ rest, p.2 = .range) (hrdy : rdy = true)
    (hfail : ¬ ∀ p ∈ checksOf i s, p.1 = false) : exec i s = .next (raiseFault .range (encode i) s) := by
  refine exec_fault_of_checks hfail fun c hc => ?_
  rw [hi, List.mem_cons] at hc
  rcases hc with hc | hc
  · simp [hrdy] at hc
  · exact hrest _ hc

/-- Settles O14: with the checks passing neither the range nor the destination would be bad. -/
theorem processingOnABadRangeFaultsRange : Obligations.ProcessingOnABadRangeFaultsRange := by
  refine fun s => ⟨fun hrdy hbad => ?_, fun hrdy hbad => ?_, fun hrdy hbad => ?_, fun hrdy hbad => ?_⟩ <;>
    refine exec_fault_range_of_ready rfl (by simp) hrdy fun hpass => ?_
  · obtain ⟨-, hrange, hdst⟩ := (ddcProc_passes s).1 hpass
    rcases hbad with h | ⟨hcap, h⟩
    · exact h hrange
    · exact h (hdst ((toNat_eq_zero_iff _).2 hcap))
  · obtain ⟨-, hrange, hdst⟩ := (aftMix_passes s).1 hpass
    exact hbad.elim (· hrange) (· hdst)
  · obtain ⟨-, hrange, hdst⟩ := (amdDet_passes s).1 hpass
    exact hbad.elim (· hrange) (· hdst)
  · obtain ⟨-, hrange, hlo, hhi, hdst⟩ := (ssbDet_passes s).1 hpass
    rcases hbad with h | h | h | h
    · exact h hrange
    · omega
    · omega
    · exact h hdst

/-- Settles O32: the effect is the statement's state; only the latched DST is written as a test of CAP the other way round. -/
theorem ddcInitLatchesItsOperands : Obligations.DdcInitLatchesItsOperands := by
  intro s h
  have hdst : (if s.args.a6.toNat > 0 then s.args.a5 else 0) = if s.args.a6 = 0 then 0 else s.args.a5 := by
    simp only [toNat_pos_iff, ite_not]
  rw [exec_ddcInit_ok h, ddcInitEffect, hdst]
  rfl

/-! ### The unit, the slots and the frame -/

/-- Settles O37: the unit at output `k` is `ddcAfter` of the unit before (`ddcLoop_unit`), and its address is the slot. -/
theorem ddcSlotAddressIsTheOneUsed : Obligations.DdcSlotAddressIsTheOneUsed := by
  intro s k hd
  rw [ddcLoop_unit hd, ddcOutAddr_after]

/-- Settles O36: the registers are `ddcAfter` n outputs, memory is what the loop leaves, and the loop keeps every byte outside the slots. -/
theorem ddcProcCompletesAndKeepsTheFrame : Obligations.DdcProcCompletesAndKeepsTheFrame := by
  intro s hm hd hok n
  have ⟨_, _, hdst⟩ := hok
  refine ⟨ddcAfter s.ddc n, (ddcRun s).2, ?_, rfl, ddcAfter_lutpos hd n, fun hc => ddcAfter_wpos hc n, fun hc => ?_,
    ddcLoop_wf _ _ _ _ hm, fun a ha => ddcLoop_outside hd hm (fun hc hn => (hdst hc hn).2) ha le_rfl⟩
  · rw [exec_ddcProc_ok hok, ddcProcEffect, ddcRun, ddcLoop_unit hd]
    rfl
  · simp [ddcAfter, hc]

/-! ### Values -/

/-- Scale-down as division with floor (R12, R118). -/
theorem scaleDown_eq (v : Int) (sh : Nat) : scaleDown v sh = wrap 16 (v / 2 ^ sh) := by
  rw [scaleDown, asr, Nat.cast_pow, Nat.cast_ofNat]

/-- The table index of raw sample `j` of group `k`, from the cursor before the command (R115, R116). -/
theorem ddcIndex_after {d : Ddc} (hd : d.Legal) (k j : Nat) :
    ddcIndex (ddcAfter d k) j = (d.lutpos.toNat + k * d.ratio.toNat + j) % d.period.toNat := by
  rw [ddcIndex, ddcAfter_lutpos hd]
  exact Nat.mod_add_mod _ _ _

/-- The sums of group `k`, in terms of the registers before the command (R116, R117). -/
theorem ddcGroup_after {d : Ddc} (hd : d.Legal) (m : Memory) (k group : Nat) :
    ddcGroup m (ddcAfter d k) group =
      (wrap 32 (∑ j ∈ Finset.range d.ratio.toNat, rawAt m (group + 2 * j)
          * coefAt m (d.ti.toNat + 2 * ((d.lutpos.toNat + k * d.ratio.toNat + j) % d.period.toNat))),
        wrap 32 (∑ j ∈ Finset.range d.ratio.toNat, rawAt m (group + 2 * j)
          * coefAt m (d.tq.toNat + 2 * ((d.lutpos.toNat + k * d.ratio.toNat + j) % d.period.toNat)))) := by
  rw [ddcGroup_eq]
  simp only [ddcIndex_after hd]
  rfl

/-- Settles O38: the loop runs output 0 alone, whose group is summed on the memory before the command. -/
theorem ddcProcOneOutput : Obligations.DdcProcOneOutput := by
  intro s hd hok hn p r sum out
  have hcount : ddcCount s = 1 := hn
  have hunit : (ddcRun s).1 = { s.ddc with
      lutpos := BitVec.ofNat 32 ((s.ddc.lutpos.toNat + r) % p)
      wpos := if s.ddc.cap = 0 then s.ddc.wpos else BitVec.ofNat 32 ((s.ddc.wpos.toNat + 1) % s.ddc.cap.toNat) } := by
    rw [ddcRun, hcount, ddcLoop_unit hd, ddcAfter, Nat.one_mul]
    simp only [toNat_pos_iff, ite_not]
    rfl
  have haddr : ddcOutAddr s.ddc (opDst s) 0 = if s.ddc.cap = 0 then s.args.a2.toNat else s.ddc.dst.toNat + 4 * s.ddc.wpos.toNat := by
    simp only [ddcOutAddr, toNat_pos_iff, ite_not]
    rfl
  have hmem : (ddcRun s).2 = writeIQ s.mem
      (if s.ddc.cap = 0 then s.args.a2.toNat else s.ddc.dst.toNat + 4 * s.ddc.wpos.toNat) (out s.ddc.ti.toNat) (out s.ddc.tq.toNat) := by
    rw [ddcRun, hcount, forLoop_one, ddcOutput]
    simp only [haddr, ddcGroup_eq, scaleDown_eq, Nat.zero_mul, Nat.mul_zero, Nat.add_zero]
    rfl
  rw [exec_ddcProc_ok hok, ddcProcEffect, hunit, hmem]
  rfl

/-- A sum of products whose magnitudes add up to at most 2^31 − 1 is not changed by the 32-bit wrap, nor its shifted value by the cut if it
lies in 16 bits (R122). -/
theorem sum_exact_within_range {r : Nat} {term : Nat → Int} (sh : Nat) (hmag : ∑ j ∈ Finset.range r, |term j| ≤ 2 ^ 31 - 1) :
    let sum := ∑ j ∈ Finset.range r, term j
    wrap 32 sum = sum ∧ (-32768 ≤ sum / 2 ^ sh → sum / 2 ^ sh ≤ 32767 → scaleDown (wrap 32 sum) sh = sum / 2 ^ sh) := by
  intro sum
  obtain ⟨hlo, hhi⟩ := abs_le.1 ((Finset.abs_sum_le_sum_abs term (Finset.range r)).trans hmag)
  have hsum : wrap 32 sum = sum := wrap_of_range (by decide) (by norm_num; omega) (by norm_num; omega)
  refine ⟨hsum, fun h1 h2 => ?_⟩
  rw [scaleDown_eq, hsum]
  exact wrap_of_range (by decide) (by norm_num; omega) (by norm_num; omega)

/-- Settles O42: both sums are the exact ones wrapped once (`ddcGroup_eq`), and `sum_exact_within_range` holds of each. -/
theorem ddcOutputIsExactWithinRange : Obligations.DdcOutputIsExactWithinRange := by
  intro m d group term sum noWrap
  rw [ddcGroup_eq]
  exact ⟨sum_exact_within_range d.shift.toNat, sum_exact_within_range d.shift.toNat⟩

/-! ### Every output of a command whose destination is apart from what it reads -/

/-- Two outputs of a command go to separate slots, unless the ring comes round onto itself (R119). -/
theorem ddcSlotAddr_apart {d : Ddc} {n : Nat} (hcap : 0 < d.cap.toNat → n ≤ d.cap.toNat) (dst : Nat) {j k : Nat} (hjk : j < k)
    (hk : k < n) : ddcSlotAddr d dst j + 4 ≤ ddcSlotAddr d dst k ∨ ddcSlotAddr d dst k + 4 ≤ ddcSlotAddr d dst j := by
  by_cases hc : 0 < d.cap.toNat
  · have hn := hcap hc
    have hne : (d.wpos.toNat + j) % d.cap.toNat ≠ (d.wpos.toNat + k) % d.cap.toNat := fun h =>
      hjk.ne ((Nat.ModEq.add_left_cancel' d.wpos.toNat h).eq_of_lt_of_lt (by omega) (by omega))
    simp only [ddcSlotAddr, gt_iff_lt, hc, if_true]
    omega
  · simp only [ddcSlotAddr, gt_iff_lt, hc, if_false]
    omega

/-- Once written, an output stays: the later ones go to other slots. -/
theorem ddcLoop_keeps_output {d : Ddc} (hd : d.Legal) {first dst n : Nat} {m : Memory} (hm : m.wf = true)
    (hfit : d.cap.toNat = 0 → 0 < n → dst + 4 * n ≤ 4294967296) (hcap : 0 < d.cap.toNat → n ≤ d.cap.toNat) {k a : Nat}
    (ha : InSpan a (ddcSlotAddr d dst k) 4) {i : Nat} (hki : k + 1 ≤ i) (hi : i ≤ n) :
    (forLoop (ddcOutput first dst) i (d, m)).2.readByte a = (forLoop (ddcOutput first dst) (k + 1) (d, m)).2.readByte a := by
  induction i, hki using Nat.le_induction with
  | base => rfl
  | succ i hki ih =>
    have hapart := ddcSlotAddr_apart hcap dst (Nat.lt_of_succ_le hki) hi
    rw [ddcLoop_mem_succ hd, readByte_writeIQ_outside (ddcLoop_wf _ _ _ _ hm) (ddcSlotAddr_fits hd hfit hi) _ _ (by omega),
      ih (by omega)]

/-- The sums of group `k` of a command whose destination is apart from what it reads are those on the memory before it. -/
theorem ddcGroup_of_apart {s : State} (hm : s.mem.wf = true) (hd : s.ddc.Legal)
    (hfit : s.ddc.cap.toNat = 0 → 0 < ddcCount s → opDst s + 4 * ddcCount s ≤ 4294967296)
    (hapart : ∀ a, ddcStores s a → ¬ ddcReads s a) {k : Nat} (hk : k < ddcCount s) :
    ddcGroup (forLoop (ddcOutput (opBegin s) (opDst s)) k (s.ddc, s.mem)).2 (ddcAfter s.ddc k)
        (opBegin s + 2 * (k * s.ddc.ratio.toNat))
      = ddcGroup s.mem (ddcAfter s.ddc k) (opBegin s + 2 * (k * s.ddc.ratio.toNat)) := by
  have hread : ∀ a, ddcReads s a →
      (forLoop (ddcOutput (opBegin s) (opDst s)) k (s.ddc, s.mem)).2.readByte a = s.mem.readByte a := fun a ha =>
    ddcLoop_outside hd hm hfit (fun j hj hja => hapart a ⟨j, hj, hja⟩ ha) hk.le
  obtain ⟨-, -, hp, -⟩ := ddcAfter_legal hd k
  exact ddcGroup_congr hp (fun a ha => hread a (ddcReads_of_group hk ha)) (fun a ha => hread a (.inr (.inl ha)))
    (fun a ha => hread a (.inr (.inr ha)))

/-- Settles O40: output `k` is written from the sums on the memory before the command and not touched by the later outputs. -/
theorem ddcProcOutputsFollowTheContract : Obligations.DdcProcOutputsFollowTheContract := by
  intro s hm hd hok hcap hapart
  have ⟨_, _, hdst⟩ := hok
  have hfit : s.ddc.cap.toNat = 0 → 0 < ddcCount s → opDst s + 4 * ddcCount s ≤ 4294967296 := fun hc hn => (hdst hc hn).2
  refine ⟨_, exec_ddcProc_ok hok, fun k hk => ?_⟩
  intro r sum addr
  have haddr : addr + 4 ≤ 4294967296 := ddcSlotAddr_fits hd hfit hk
  have hgroup : ddcGroup (forLoop (ddcOutput (opBegin s) (opDst s)) k (s.ddc, s.mem)).2 (ddcAfter s.ddc k) (opBegin s + 2 * (k * r))
      = (wrap 32 (sum s.ddc.ti.toNat), wrap 32 (sum s.ddc.tq.toNat)) := by
    rw [ddcGroup_of_apart hm hd hfit hapart hk, ddcGroup_after hd]
    simp only [sum, Nat.mul_add, Nat.add_assoc]
    rfl
  have hkeep : ∀ a, InSpan a addr 4 → (ddcProcEffect s).mem.readByte a
      = (forLoop (ddcOutput (opBegin s) (opDst s)) (k + 1) (s.ddc, s.mem)).2.readByte a := fun a ha =>
    ddcLoop_keeps_output hd hm hfit hcap ha hk le_rfl
  have hwf := ddcLoop_wf (opBegin s) (opDst s) k s.ddc hm
  rw [iAt_congr fun c h1 h2 => hkeep c ⟨h1, by omega⟩, qAt_congr fun c h1 h2 => hkeep c ⟨by omega, h2⟩, ddcLoop_mem_succ hd, hgroup]
  refine ⟨(iAt_writeIQ hwf haddr _ _).trans ?_, (qAt_writeIQ hwf haddr _ _).trans ?_⟩
  · rw [scaleDown_eq, wrap_wrap]
  · rw [scaleDown_eq, wrap_wrap]

/-! ### Splitting a command at a group boundary -/

/-- The state whose DDC.PROC takes the first `k` groups of the input only. -/
def ddcHead (s : State) (k : Nat) : State :=
  { s with args := { s.args with a1 := BitVec.ofNat 32 (s.args.a0.toNat + 2 * (k * s.ddc.ratio.toNat)) } }

section
variable {s : State} {k : Nat}

/-- Whole groups lie in the range exactly when the command has as many outputs (R114). -/
theorem le_ddcCount_iff (hd : s.ddc.Legal) (hle : s.args.a0.toNat ≤ s.args.a1.toNat) :
    k ≤ ddcCount s ↔ s.args.a0.toNat + 2 * (k * s.ddc.ratio.toNat) ≤ s.args.a1.toNat := by
  obtain ⟨-, -, -, hr, -⟩ := hd
  rw [ddcCount, udiv, Nat.le_div_iff_mul_le hr, elemCount, opEnd, opBegin]
  omega

/-- The head has `k` outputs. -/
theorem ddcCount_ddcHead (hd : s.ddc.Legal) (hk : s.args.a0.toNat + 2 * (k * s.ddc.ratio.toNat) ≤ s.args.a1.toNat) :
    ddcCount (ddcHead s k) = k := by
  have hend : opEnd (ddcHead s k) = s.args.a0.toNat + 2 * (k * s.ddc.ratio.toNat) := toNat_ofNat_of_le hk
  obtain ⟨-, -, -, hr, -⟩ := hd
  calc ddcCount (ddcHead s k) = (opEnd (ddcHead s k) - s.args.a0.toNat) / 2 / s.ddc.ratio.toNat := rfl
    _ = k * s.ddc.ratio.toNat / s.ddc.ratio.toNat := by rw [hend, Nat.add_sub_cancel_left, Nat.mul_div_cancel_left _ (by decide)]
    _ = k := Nat.mul_div_cancel _ hr

/-- The checks of the head pass: its outputs are the first of those the whole command has room for. -/
theorem ddcHead_ok (hd : s.ddc.Legal) (hok : ddcProcOk s) (hk : s.args.a0.toNat + 2 * (k * s.ddc.ratio.toNat) ≤ s.args.a1.toNat) :
    ddcProcOk (ddcHead s k) := by
  obtain ⟨hrdy, ⟨hle, ha0, -⟩, hdst⟩ := hok
  have hend : (ddcHead s k).args.a1.toNat = s.args.a0.toNat + 2 * (k * s.ddc.ratio.toNat) := toNat_ofNat_of_le hk
  refine ⟨hrdy, ⟨by rw [hend]; exact Nat.le_add_right _ _, ha0, by rw [hend]; omega⟩, fun hc => ?_⟩
  show dstOk (ddcHead s k) (ddcCount (ddcHead s k)) 4
  rw [ddcCount_ddcHead hd hk]
  intro hpos
  have hkn : k ≤ ddcCount s := (le_ddcCount_iff hd hle).2 hk
  obtain ⟨hal, hroom⟩ := hdst hc (hpos.trans_le hkn)
  exact ⟨hal, (Nat.add_le_add_left (Nat.mul_le_mul_left 4 hkn) _).trans hroom⟩

/-- DDC.PROC over the first `k` groups completes, with the first `k` outputs of the whole command. -/
theorem exec_ddcHead (hd : s.ddc.Legal) (hok : ddcProcOk s) (hk : s.args.a0.toNat + 2 * (k * s.ddc.ratio.toNat) ≤ s.args.a1.toNat) :
    exec .ddcProc (ddcHead s k) =
      .next { ddcHead s k with
        ddc := (forLoop (ddcOutput (opBegin s) (opDst s)) k (s.ddc, s.mem)).1
        mem := (forLoop (ddcOutput (opBegin s) (opDst s)) k (s.ddc, s.mem)).2 } := by
  rw [exec_ddcProc_ok (ddcHead_ok hd hok hk), ddcProcEffect, ddcRun, ddcCount_ddcHead hd hk]
  rfl

end

/-- Settles O41: the complete groups are the head of `ddcCount s` groups. -/
theorem ddcProcDropsTheTrailingPartialGroup : Obligations.DdcProcDropsTheTrailingPartialGroup := by
  intro s hd hok last
  have ⟨_, ⟨hle, _, _⟩, _⟩ := hok
  refine ⟨_, exec_ddcHead hd hok ((le_ddcCount_iff hd hle).1 le_rfl), ?_⟩
  rw [exec_ddcProc_ok hok]
  rfl

/-- The state whose DDC.PROC takes the groups from group `k` on, after the first `k` outputs: begin and, in linear mode, destination moved
along (R115). -/
def ddcTail (s : State) (k : Nat) : State :=
  { s with
    args := { s.args with
      a0 := BitVec.ofNat 32 (s.args.a0.toNat + 2 * (k * s.ddc.ratio.toNat))
      a2 := if s.ddc.cap = 0 then BitVec.ofNat 32 (s.args.a2.toNat + 4 * k) else s.args.a2 }
    ddc := (forLoop (ddcOutput (opBegin s) (opDst s)) k (s.ddc, s.mem)).1
    mem := (forLoop (ddcOutput (opBegin s) (opDst s)) k (s.ddc, s.mem)).2 }

section
variable {s : State} {k : Nat}

theorem opBegin_ddcTail (hk : s.args.a0.toNat + 2 * (k * s.ddc.ratio.toNat) ≤ s.args.a1.toNat) :
    opBegin (ddcTail s k) = s.args.a0.toNat + 2 * (k * s.ddc.ratio.toNat) := toNat_ofNat_of_le hk

/-- In linear mode the destination of the tail's first output is that of output `k`, if there is such an output. -/
theorem opDst_ddcTail (hdst : s.ddc.cap.toNat = 0 → dstOk s (ddcCount s) 4) (hk : k < ddcCount s) (hc : s.ddc.cap.toNat = 0) :
    opDst (ddcTail s k) = s.args.a2.toNat + 4 * k := by
  have hfits := dstOk_fits (hdst hc) hk
  rw [opDst] at hfits
  rw [opDst, ddcTail, if_pos ((toNat_eq_zero_iff _).1 hc), BitVec.toNat_ofNat, Nat.mod_eq_of_lt (by omega)]

theorem ddcTail_ddc (hd : s.ddc.Legal) : (ddcTail s k).ddc = ddcAfter s.ddc k := ddcLoop_unit hd _ _ _ _

theorem ddcCount_ddcTail (hd : s.ddc.Legal) (hk : s.args.a0.toNat + 2 * (k * s.ddc.ratio.toNat) ≤ s.args.a1.toNat) :
    ddcCount (ddcTail s k) = ddcCount s - k := by
  have hbegin := opBegin_ddcTail hk
  have helems : elemCount (ddcTail s k) 2 = elemCount s 2 - s.ddc.ratio.toNat * k := by
    rw [elemCount, hbegin, elemCount, opBegin, Nat.mul_comm _ k]
    show (s.args.a1.toNat - _) / 2 = (s.args.a1.toNat - _) / 2 - _
    omega
  rw [ddcCount, helems, ddcTail_ddc hd]
  exact Nat.sub_mul_div _ _ _

/-- The checks of the tail pass: its outputs are the last of those the whole command has room for. -/
theorem ddcTail_ok (hd : s.ddc.Legal) (hok : ddcProcOk s) (hk : s.args.a0.toNat + 2 * (k * s.ddc.ratio.toNat) ≤ s.args.a1.toNat) :
    ddcProcOk (ddcTail s k) := by
  obtain ⟨hrdy, ⟨-, ha0, ha1⟩, hdst⟩ := hok
  have hbegin : (ddcTail s k).args.a0.toNat = s.args.a0.toNat + 2 * (k * s.ddc.ratio.toNat) := opBegin_ddcTail hk
  refine ⟨hrdy, ⟨hbegin.trans_le hk, ?_, ha1⟩, fun hc => ?_⟩
  · rw [hbegin]
    omega
  · show dstOk (ddcTail s k) (ddcCount (ddcTail s k)) 4
    have hc : s.ddc.cap.toNat = 0 := by rwa [ddcTail_ddc hd] at hc
    rw [ddcCount_ddcTail hd hk]
    intro hpos
    have hkn : k < ddcCount s := Nat.lt_of_sub_pos hpos
    obtain ⟨hal, hroom⟩ := hdst hc (Nat.zero_lt_of_lt hkn)
    have ha2 : (ddcTail s k).args.a2.toNat = s.args.a2.toNat + 4 * k := opDst_ddcTail hdst hkn hc
    have hroom : s.args.a2.toNat + 4 * ddcCount s ≤ 2 ^ 32 := hroom
    rw [ha2]
    omega

/-- After the first `k` outputs the tail's loop is the rest of the whole command's. -/
theorem ddcRun_ddcTail (hd : s.ddc.Legal) (hdst : s.ddc.cap.toNat = 0 → dstOk s (ddcCount s) 4)
    (hle : s.args.a0.toNat ≤ s.args.a1.toNat) (hk : s.args.a0.toNat + 2 * (k * s.ddc.ratio.toNat) ≤ s.args.a1.toNat) :
    ddcRun (ddcTail s k) = ddcRun s := by
  have hunit : (ddcTail s k).ddc = ddcAfter s.ddc k := ddcTail_ddc hd
  have hratio : (ddcTail s k).ddc.ratio = s.ddc.ratio := by rw [hunit]; rfl
  have hcap : (ddcTail s k).ddc.cap = s.ddc.cap := by rw [hunit]; rfl
  have hstart : forLoop (ddcOutput (opBegin s) (opDst s)) k (s.ddc, s.mem) = ((ddcTail s k).ddc, (ddcTail s k).mem) := rfl
  obtain ⟨l, hl⟩ := Nat.exists_eq_add_of_le ((le_ddcCount_iff hd hle).2 hk)
  rw [ddcRun, ddcRun, ddcCount_ddcTail hd hk, hl, Nat.add_sub_cancel_left, forLoop_add, hstart]
  rcases Nat.eq_zero_or_pos l with rfl | hpos
  · rw [forLoop_zero, forLoop_zero]
  · have hdst' : (ddcTail s k).ddc.cap.toNat = 0 → opDst (ddcTail s k) = opDst s + 4 * k := fun hc =>
      opDst_ddcTail hdst (by omega) (by rwa [hcap] at hc)
    rw [ddcLoop_shift _ _ _ _ _ hdst', hratio, opBegin_ddcTail hk, opBegin]

/-- DDC.PROC over the groups from group `k` on completes with the whole command's registers and memory. -/
theorem exec_ddcTail (hd : s.ddc.Legal) (hok : ddcProcOk s)
    (hk : s.args.a0.toNat + 2 * (k * s.ddc.ratio.toNat) ≤ s.args.a1.toNat) :
    exec .ddcProc (ddcTail s k) = .next { ddcTail s k with ddc := (ddcRun s).1, mem := (ddcRun s).2 } := by
  have ⟨_, ⟨hle, _, _⟩, hdst⟩ := hok
  rw [exec_ddcProc_ok (ddcTail_ok hd hok hk), ddcProcEffect, ddcRun_ddcTail hd hdst hle hk]
  rfl

end

/-- Settles O39: the first command is the head, the second the tail, and the tail ends with what the whole command leaves. -/
theorem ddcProcSplitsAtGroupBoundaries : Obligations.DdcProcSplitsAtGroupBoundaries := by
  intro s k hd hok hk mid dst
  refine ⟨_, _, exec_ddcHead hd hok hk, exec_ddcTail hd hok hk, ?_⟩
  rw [exec_ddcProc_ok hok]
  rfl

end Sys2Proof.Machine
end

section
/-! PROOFS. The family 41_aft: AFT.INIT (spec/41_aft.md R131), and AFT.MIX sample by sample: completion and frame (R133, R136), splitting
(R136) and the values written (R134, R135, R137, R138). -/

namespace Sys2Proof.Machine

/-! ### AFT.INIT -/

/-- Settles O11: the first two causes are read off the list of checks; past them every failing check has cause CFG_ADDR. -/
theorem aftInitReportsItsFirstFailingCheck : Obligations.AftInitReportsItsFirstFailingCheck := by
  intro s
  have hmode : s.args.a4 = 1 ↔ s.args.a4.toNat = 1 := BitVec.toNat_eq (y := 1#32)
  simp only [ne_eq, ← toNat_eq_zero_iff, hmode]
  refine ⟨fun hp => ?_, fun hp hparam => ?_, fun hp hsh hm haddr => ?_⟩
  · exact exec_fault_of_firstFailing (by simp [checksOf, aftInitChecks, hp])
  · exact exec_fault_of_firstFailing (by simp [checksOf, aftInitChecks, hp, hparam])
  · refine exec_fault_of_checks (fun hpass => ?_) fun c hc => ?_
    · obtain ⟨-, -, -, htc, htc', hts⟩ := (aftInit_passes s).1 hpass
      omega
    · simp only [checksOf, aftInitChecks, List.mem_cons, List.not_mem_nil, Prod.mk.injEq, true_eq_decide_iff, or_false] at hc
      rcases hc with ⟨h, -⟩ | ⟨h, -⟩ | ⟨-, rfl⟩ | ⟨-, rfl⟩
      · exact absurd h hp
      · exact absurd h (by simp [hsh, hm])
      · rfl
      · rfl

/-- Settles O33: the effect is the statement's state. -/
theorem aftInitLatchesItsOperands : Obligations.AftInitLatchesItsOperands := fun _ h => exec_aftInit_ok h

/-! ### The unit and the frame -/

/-- The outputs of a command whose destination passes its check end at or below 2^32 (R67). -/
theorem dstOk_room {s : State} {n size : Nat} (h : dstOk s n size) : 0 < n → opDst s + size * n ≤ 4294967296 := fun hn => (h hn).2

/-- Settles O43: the registers are `aftAfter` n samples, memory is what the loop leaves, which keeps every byte outside the outputs. -/
theorem aftMixCompletesAndKeepsTheFrame : Obligations.AftMixCompletesAndKeepsTheFrame := by
  intro s hm hf hok n
  have ⟨_, _, hdst⟩ := hok
  refine ⟨(aftAfter s.aft n).lutpos, (aftRun s).2, ?_, aftAfter_lutpos hf n, aftLoop_wf _ _ _ _ hm,
    fun a ha => aftLoop_outside hm (dstOk_room hdst) le_rfl ha⟩
  rw [exec_aftMix_ok hok, aftMixEffect, aftRun, aftLoop_unit hf]
  rfl

/-! ### Values -/

/-- The minimal form: both axes times the one coefficient at the cursor (R134). -/
theorem aftProduct_minimal {f : Aft} (h : f.mode = 0) (m : Memory) (i q : Int) :
    aftProduct m f i q =
      (i * coefAt m (f.tc.toNat + 2 * f.lutpos.toNat), q * coefAt m (f.tc.toNat + 2 * f.lutpos.toNat)) := by
  rw [aftProduct, h]
  rfl

/-- The general form: the complex product, each sum wrapped (R135). -/
theorem aftProduct_general {f : Aft} (h : f.mode = 1) (m : Memory) (i q : Int) :
    aftProduct m f i q =
      (wrap 32 (i * coefAt m (f.tc.toNat + 2 * f.lutpos.toNat) - q * coefAt m (f.ts.toNat + 2 * f.lutpos.toNat)),
        wrap 32 (i * coefAt m (f.ts.toNat + 2 * f.lutpos.toNat) + q * coefAt m (f.tc.toNat + 2 * f.lutpos.toNat))) := by
  rw [aftProduct, h]
  rfl

/-- One sample, in either mode: the loop runs output 0 alone, on the registers and the memory before the command (R133, R137). -/
theorem exec_aftMix_one {s : State} (hok : aftMixOk s) (hn : elemCount s 4 = 1) {pI pQ : Int}
    (hp : aftProduct s.mem s.aft (iAt s.mem s.args.a0.toNat) (qAt s.mem s.args.a0.toNat) = (pI, pQ)) :
    exec .aftMix s = .next { s with
      aft := aftAdvance s.aft
      mem := writeIQ s.mem s.args.a2.toNat (wrap 16 (pI / 2 ^ s.aft.shift.toNat)) (wrap 16 (pQ / 2 ^ s.aft.shift.toNat)) } := by
  have hout : aftOutput (opBegin s) (opDst s) 0 (s.aft, s.mem) = (aftAdvance s.aft,
      writeIQ s.mem s.args.a2.toNat (wrap 16 (pI / 2 ^ s.aft.shift.toNat)) (wrap 16 (pQ / 2 ^ s.aft.shift.toNat))) := by
    simp only [aftOutput, opBegin, opDst, Nat.mul_zero, Nat.add_zero, hp, scaleDown_eq]
  rw [exec_aftMix_ok hok, aftMixEffect, aftRun, hn, forLoop_one, hout]
  rfl

/-- Settles O44: the one sample, with the product of mode 0. -/
theorem aftMixOneSampleMinimalForm : Obligations.AftMixOneSampleMinimalForm :=
  fun _ _ hok hn hmode => exec_aftMix_one hok hn (aftProduct_minimal hmode ..)

/-- Settles O45: the one sample, with the product of mode 1. -/
theorem aftMixOneSampleGeneralForm : Obligations.AftMixOneSampleGeneralForm :=
  fun _ _ hok hn hmode => exec_aftMix_one hok hn (aftProduct_general hmode ..)

/-! ### Every output of a command in mode 0, in place or apart from what it reads -/

/-- Once written, an output stays: the later ones go to other addresses. -/
theorem aftLoop_keeps_output {f : Aft} {first dst n : Nat} {m : Memory} (hm : m.wf = true) (hfit : 0 < n → dst + 4 * n ≤ 4294967296)
    {k a : Nat} (ha : InSpan a (dst + 4 * k) 4) {i : Nat} (hki : k + 1 ≤ i) (hi : i ≤ n) :
    (forLoop (aftOutput first dst) i (f, m)).2.readByte a = (forLoop (aftOutput first dst) (k + 1) (f, m)).2.readByte a := by
  induction i, hki using Nat.le_induction with
  | base => rfl
  | succ i hki ih =>
    have hroom := hfit (by omega)
    rw [forLoop_succ, ← ih (by omega)]
    exact readByte_writeIQ_outside (aftLoop_wf _ _ _ _ hm) (by omega) _ _ (by omega)

/-- In place or with the destination apart from the input, sample `k` is untouched when output `k` is reached (R138). -/
theorem aftLoop_keeps_sample {s : State} (hm : s.mem.wf = true) (hdst : dstOk s (elemCount s 4) 4)
    (hinput : s.args.a2 = s.args.a0 ∨ ∀ a, aftStores s a → ¬ InSpan a s.args.a0.toNat (s.args.a1.toNat - s.args.a0.toNat))
    {k : Nat} (hk : k < elemCount s 4) {a : Nat} (ha : InSpan a (opBegin s + 4 * k) 4) :
    (forLoop (aftOutput (opBegin s) (opDst s)) k (s.aft, s.mem)).2.readByte a = s.mem.readByte a := by
  refine aftLoop_outside hm (dstOk_room hdst) hk.le fun hin => ?_
  rcases hinput with hplace | hapart
  · have hbegin : opDst s = opBegin s := congrArg BitVec.toNat hplace
    omega
  · have hbegin : opBegin s = s.args.a0.toNat := rfl
    have hlen : 4 * elemCount s 4 ≤ s.args.a1.toNat - s.args.a0.toNat := Nat.mul_div_le _ _
    exact hapart a ⟨hin.1, by omega⟩ ⟨by omega, by omega⟩

/-- With the destination apart from the coefficient table, the coefficient at the cursor in mode 0 is the one before the command. -/
theorem aftLoop_keeps_product {s : State} (hm : s.mem.wf = true) (hf : s.aft.Legal) (hdst : dstOk s (elemCount s 4) 4)
    (hmode : s.aft.mode = 0) (htable : ∀ a, aftStores s a → ¬ InSpan a s.aft.tc.toNat (2 * s.aft.period.toNat))
    {k : Nat} (hk : k < elemCount s 4) (i q : Int) :
    aftProduct (forLoop (aftOutput (opBegin s) (opDst s)) k (s.aft, s.mem)).2 (aftAfter s.aft k) i q
      = aftProduct s.mem (aftAfter s.aft k) i q := by
  refine aftProduct_congr (aftAfter_legal hf k) i q (fun a ha => ?_) fun h1 => ?_
  · exact aftLoop_outside hm (dstOk_room hdst) hk.le fun hin => htable a ⟨hin.1, by omega⟩ ha
  · rw [show (aftAfter s.aft k).mode = 0 from hmode] at h1
    exact absurd h1 (by decide)

/-- Settles O47: when output `k` is reached, sample `k` and the table read as before the command, and the later outputs leave it alone. -/
theorem aftMixOutputsInPlaceOrDisjoint : Obligations.AftMixOutputsInPlaceOrDisjoint := by
  intro s hm hf hok hmode htable hinput
  have ⟨_, _, hdst⟩ := hok
  refine ⟨_, exec_aftMix_ok hok, fun k hk => ?_⟩
  intro c
  have haddr : s.args.a2.toNat + 4 * k + 4 ≤ 4294967296 := dstOk_fits hdst hk
  have hwf := aftLoop_wf (opBegin s) (opDst s) k s.aft hm
  have hsample := fun a => aftLoop_keeps_sample hm hdst hinput hk (a := a)
  have hi := iAt_congr fun a h1 h2 => hsample a ⟨h1, by omega⟩
  have hq := qAt_congr fun a h1 h2 => hsample a ⟨by omega, h2⟩
  have hproduct (i q : Int) :
      aftProduct (forLoop (aftOutput (opBegin s) (opDst s)) k (s.aft, s.mem)).2 (aftAfter s.aft k) i q = (i * c, q * c) := by
    rw [aftLoop_keeps_product hm hf hdst hmode htable hk, aftProduct_minimal (f := aftAfter s.aft k) hmode, aftAfter_lutpos hf]
    rfl
  have hkeep : ∀ a, InSpan a (s.args.a2.toNat + 4 * k) 4 → (aftMixEffect s).mem.readByte a
      = (forLoop (aftOutput (opBegin s) (opDst s)) (k + 1) (s.aft, s.mem)).2.readByte a := fun a ha =>
    aftLoop_keeps_output hm (dstOk_room hdst) ha hk le_rfl
  rw [iAt_congr fun a h1 h2 => hkeep a ⟨h1, by omega⟩, qAt_congr fun a h1 h2 => hkeep a ⟨by omega, h2⟩, aftLoop_mem_succ hf]
  dsimp only
  rw [hi, hq, hproduct]
  refine ⟨(iAt_writeIQ hwf haddr _ _).trans ?_, (qAt_writeIQ hwf haddr _ _).trans ?_⟩
  · rw [scaleDown_eq, wrap_wrap]
    rfl
  · rw [scaleDown_eq, wrap_wrap]
    rfl

/-! ### The parts of a range of IQSamples (R98): the first `k` samples, and the samples from sample `k` on -/

/-- The operands of a command over the first `k` samples of the range. -/
abbrev Args.head (v : Args) (k : Nat) : Args := { v with a1 := BitVec.ofNat 32 (v.a0.toNat + 4 * k) }

/-- The operands of a command over the samples from sample `k` on, its outputs of `size` bytes following those of the first `k`. -/
abbrev Args.tail (v : Args) (size k : Nat) : Args :=
  { v with a0 := BitVec.ofNat 32 (v.a0.toNat + 4 * k), a2 := BitVec.ofNat 32 (v.a2.toNat + size * k) }

section
variable {s : State} {k : Nat}

/-- The first `k` samples lie in the range exactly when the command has as many outputs. -/
theorem le_elemCount_iff (hle : s.args.a0.toNat ≤ s.args.a1.toNat) :
    k ≤ elemCount s 4 ↔ s.args.a0.toNat + 4 * k ≤ s.args.a1.toNat := by
  rw [elemCount, opEnd, opBegin]
  omega

section
variable {t : State} (ht : t.args = s.args.head k) (hk : s.args.a0.toNat + 4 * k ≤ s.args.a1.toNat)
include ht hk

theorem opEnd_head : opEnd t = opBegin s + 4 * k := by
  rw [opEnd, ht]
  exact toNat_ofNat_of_le hk

/-- The first `k` samples are `k`. -/
theorem elemCount_head : elemCount t 4 = k := by
  have hbegin : opBegin t = opBegin s := by rw [opBegin, ht, opBegin]
  rw [elemCount, opEnd_head ht hk, hbegin, Nat.add_sub_cancel_left, Nat.mul_div_cancel_left _ (by decide)]

/-- The range of the first `k` samples passes its check. -/
theorem rangeOk_head (h : rangeOk s 4) : rangeOk t 4 := by
  obtain ⟨-, ha0, -⟩ := h
  have hbegin : t.args.a0 = s.args.a0 := by rw [ht]
  have hend : t.args.a1.toNat = s.args.a0.toNat + 4 * k := opEnd_head ht hk
  rw [rangeOk, hend, hbegin]
  omega

/-- The destination of the first `k` outputs passes its check: they are the first of those there is room for. -/
theorem dstOk_head {size : Nat} (hle : s.args.a0.toNat ≤ s.args.a1.toNat) (h : dstOk s (elemCount s 4) size) :
    dstOk t (elemCount t 4) size := by
  have hkn : k ≤ elemCount s 4 := (le_elemCount_iff hle).2 hk
  have ha2 : t.args.a2 = s.args.a2 := by rw [ht]
  rw [elemCount_head ht hk, dstOk, ha2]
  intro hpos
  obtain ⟨hal, hroom⟩ := h (hpos.trans_le hkn)
  exact ⟨hal, (Nat.add_le_add_left (Nat.mul_le_mul_left size hkn) _).trans hroom⟩

end

section
variable {t : State} {size : Nat} (ht : t.args = s.args.tail size k) (hk : s.args.a0.toNat + 4 * k ≤ s.args.a1.toNat)
include ht

/-- The outputs from output `k` on start where it does, if there is such an output. -/
theorem opDst_tail (hdst : dstOk s (elemCount s 4) size) (hsize : 0 < size) (hkn : k < elemCount s 4) :
    opDst t = opDst s + size * k := by
  have hfits : opDst s + size * k + size ≤ 4294967296 := dstOk_fits hdst hkn
  rw [opDst] at hfits
  rw [opDst, ht, opDst]
  exact (BitVec.toNat_ofNat ..).trans (Nat.mod_eq_of_lt (by omega))

include hk

theorem opBegin_tail : opBegin t = opBegin s + 4 * k := by
  rw [opBegin, ht]
  exact toNat_ofNat_of_le hk

/-- The samples from sample `k` on are the whole range's without the first `k`. -/
theorem elemCount_tail : elemCount t 4 = elemCount s 4 - k := by
  have hend : opEnd t = opEnd s := by rw [opEnd, ht, opEnd]
  rw [elemCount, opBegin_tail ht hk, hend, Nat.sub_add_eq, Nat.sub_mul_div, elemCount]

/-- The range of the samples from sample `k` on passes its check. -/
theorem rangeOk_tail (h : rangeOk s 4) : rangeOk t 4 := by
  obtain ⟨-, ha0, ha1⟩ := h
  have hbegin : t.args.a0.toNat = s.args.a0.toNat + 4 * k := opBegin_tail ht hk
  have hend : t.args.a1 = s.args.a1 := by rw [ht]
  rw [rangeOk, hbegin, hend]
  omega

/-- The destination of the outputs from output `k` on passes its check: they are the last of those there is room for. -/
theorem dstOk_tail (hsize : 0 < size) (h : dstOk s (elemCount s 4) size) : dstOk t (elemCount t 4) size := by
  rw [elemCount_tail ht hk]
  intro hpos
  have hkn : k < elemCount s 4 := Nat.lt_of_sub_pos hpos
  have ha2 : t.args.a2.toNat = s.args.a2.toNat + size * k := opDst_tail ht h hsize hkn
  obtain ⟨hal, hroom⟩ := h (Nat.zero_lt_of_lt hkn)
  rw [ha2, Nat.add_mul_mod_self_left, Nat.add_assoc, ← Nat.mul_add, Nat.add_sub_cancel' hkn.le]
  exact ⟨hal, hroom⟩

end

end

/-! ### Splitting a command at a sample -/

/-- The state whose AFT.MIX takes the first `k` samples of the input only. -/
def aftHead (s : State) (k : Nat) : State := { s with args := s.args.head k }

/-- The state whose AFT.MIX takes the samples from sample `k` on, after the first `k` outputs (R136). -/
def aftTail (s : State) (k : Nat) : State := { aftMixEffect (aftHead s k) with args := s.args.tail 4 k }

section
variable {s : State} {k : Nat} (hok : aftMixOk s) (hk : s.args.a0.toNat + 4 * k ≤ s.args.a1.toNat)
include hk

/-- The head's loop is the first `k` iterations of the whole command's. -/
theorem aftRun_head : aftRun (aftHead s k) = forLoop (aftOutput (opBegin s) (opDst s)) k (s.aft, s.mem) := by
  rw [aftRun, elemCount_head (t := aftHead s k) rfl hk]
  rfl

include hok

theorem aftHead_ok : aftMixOk (aftHead s k) := by
  obtain ⟨hrdy, hrange, hdst⟩ := hok
  exact ⟨hrdy, rangeOk_head rfl hk hrange, dstOk_head rfl hk hrange.1 hdst⟩

theorem aftTail_ok : aftMixOk (aftTail s k) := by
  obtain ⟨hrdy, hrange, hdst⟩ := hok
  exact ⟨hrdy, rangeOk_tail rfl hk hrange, dstOk_tail rfl hk (by decide) hdst⟩

/-- The tail's loop, which starts where the head's ends, ends where the whole command's does (R136). -/
theorem aftRun_tail : aftRun (aftTail s k) = aftRun s := by
  obtain ⟨-, ⟨hle, -, -⟩, hdst⟩ := hok
  have hargs : (aftTail s k).args = s.args.tail 4 k := rfl
  have hstart : ((aftTail s k).aft, (aftTail s k).mem) = forLoop (aftOutput (opBegin s) (opDst s)) k (s.aft, s.mem) :=
    aftRun_head hk
  obtain ⟨l, hl⟩ := Nat.exists_eq_add_of_le ((le_elemCount_iff hle).2 hk)
  rw [aftRun, aftRun, elemCount_tail hargs hk, hl, Nat.add_sub_cancel_left, forLoop_add, ← hstart]
  refine forLoop_congr _ fun j hj x => ?_
  rw [aftOutput_shift, opBegin_tail hargs hk, opDst_tail hargs hdst (by decide) (by omega)]

end

/-- Settles O46: the first command is the head, the second the tail, and the tail ends with what the whole command leaves. -/
theorem aftMixSplitsAtSampleBoundaries : Obligations.AftMixSplitsAtSampleBoundaries := by
  intro s k _ hok hk mid
  refine ⟨aftMixEffect (aftHead s k), aftMixEffect (aftTail s k), exec_aftMix_ok (aftHead_ok hok hk),
    exec_aftMix_ok (aftTail_ok hok hk), ?_⟩
  rw [exec_aftMix_ok hok, aftMixEffect, aftMixEffect, aftRun_tail hok hk]
  rfl

end Sys2Proof.Machine
end

section
/-! PROOFS. The family 42_amd: AMD.INIT (spec/42_amd.md R146), and AMD.DET sample by sample: completion and frame (R147, R148), one sample
(R149 to R154), splitting (R147), the filter folded over the input (R153, R154), and the filter's range and approach (R155, R156). -/

namespace Sys2Proof.Machine

/-! ### AMD.INIT -/

/-- Settles O12: each cause is the first failing check's, read off the list of checks. -/
theorem amdAndSsbInitReportTheirFirstFailingCheck : Obligations.AmdAndSsbInitReportTheirFirstFailingCheck := by
  intro s
  simp only [ne_eq, ← toNat_eq_zero_iff]
  refine ⟨fun hparam => ?_, fun hf => ?_, fun hf hring => ?_, fun hf hb he hbe hshift => ?_⟩
  · exact exec_fault_of_firstFailing (i := .amdInit) (by simp [checksOf, amdInitChecks, or_assoc, hparam])
  · exact exec_fault_of_firstFailing (i := .ssbInit) (by simp [checksOf, ssbInitChecks, hf])
  · exact exec_fault_of_firstFailing (i := .ssbInit) (by simp [checksOf, ssbInitChecks, or_assoc, hf, hring])
  · have hgt : ssbShift s > ssbLen s := hshift
    exact exec_fault_of_firstFailing (i := .ssbInit) (by simp [checksOf, ssbInitChecks, hf, hb, he, hbe, hgt])

/-- Settles O34: the effect is the statement's state. -/
theorem amdInitLatchesItsOperands : Obligations.AmdInitLatchesItsOperands := fun _ h => exec_amdInit_ok h

/-! ### The unit and the frame -/

/-- Settles O48: of the registers the loop changes the filter state alone, and it keeps every byte outside the outputs. -/
theorem amdDetCompletesAndKeepsTheFrame : Obligations.AmdDetCompletesAndKeepsTheFrame := by
  intro s hm _ hok n
  have ⟨_, _, hdst⟩ := hok
  have hunit : (amdRun s).1 = { s.amd with state := (amdRun s).1.state } := amdLoop_config ..
  refine ⟨(amdRun s).1.state, (amdRun s).2, ?_, fun hn => ?_, amdLoop_wf _ _ _ _ hm,
    fun a ha => amdLoop_outside hm (dstOk_room hdst) le_rfl ha⟩
  · rw [exec_amdDet_ok hok, amdDetEffect, hunit]
    rfl
  · rw [amdRun, show elemCount s 4 = 0 from hn]
    exact ⟨rfl, rfl⟩

/-! ### The filter -/

/-- The integer part of a state in 32 bits lies in 16 bits (R155). -/
theorem tz_sixteen_range {y : Int} (hlo : -2147483648 ≤ y) (hhi : y < 2147483648) : -32768 ≤ tz y 16 ∧ tz y 16 ≤ 32767 := by
  have htz : tz y 16 = Int.tdiv y 65536 := rfl
  rw [htz, Int.tdiv_eq_ediv]
  split
  · omega
  · next hneg =>
    rw [Int.sign_eq_one_of_pos (by decide)]
    omega

section
variable {al : Nat} {y mag : Int}

/-- Below the target the state does not fall and does not pass it; with a factor below 1 it stays below (R156). -/
theorem amdFilter_below (hal : al ≤ 65536) (hy : y < mag * 65536) :
    y ≤ amdFilter al y mag ∧ amdFilter al y mag ≤ mag * 65536 ∧ (al < 65536 → amdFilter al y mag < mag * 65536) := by
  have hd : 0 < mag * 65536 - y := sub_pos.2 hy
  have hlo : 0 ≤ (mag * 65536 - y) * al / 65536 := Int.ediv_nonneg (by positivity) (by decide)
  have hhi : (mag * 65536 - y) * al / 65536 ≤ mag * 65536 - y :=
    Int.ediv_le_of_le_mul (by decide) (mul_le_mul_of_nonneg_left (by exact_mod_cast hal) hd.le)
  have hlt (h : al < 65536) : (mag * 65536 - y) * al / 65536 < mag * 65536 - y :=
    Int.ediv_lt_of_lt_mul (by decide) (mul_lt_mul_of_pos_left (by exact_mod_cast h) hd)
  rw [amdFilter_eq]
  exact ⟨by omega, by omega, fun h => by have := hlt h; omega⟩

/-- Above the target, with a positive factor, the state falls and does not pass it (R156). -/
theorem amdFilter_above (hal : al ≤ 65536) (hpos : 0 < al) (hy : mag * 65536 < y) :
    mag * 65536 ≤ amdFilter al y mag ∧ amdFilter al y mag < y := by
  have hd : mag * 65536 - y < 0 := sub_neg.2 hy
  have hlo : mag * 65536 - y ≤ (mag * 65536 - y) * al / 65536 :=
    Int.le_ediv_of_mul_le (by decide) (mul_le_mul_of_nonpos_left (by exact_mod_cast hal) hd.le)
  have hneg : (mag * 65536 - y) * al / 65536 < 0 :=
    Int.ediv_neg_of_neg_of_pos (mul_neg_of_neg_of_pos hd (by exact_mod_cast hpos)) (by decide)
  rw [amdFilter_eq]
  omega

/-- On the target, or with factor 0, the state stays (R156). -/
theorem amdFilter_fixed (h : y = mag * 65536 ∨ al = 0) : amdFilter al y mag = y := by
  rw [amdFilter_eq]
  rcases h with rfl | rfl
  · simp
  · simp

end

/-- Settles O52: the range of the state gives the output's; the state's approach is by the three places it can start from. -/
theorem amdFilterApproachesItsTarget : Obligations.AmdFilterApproachesItsTarget := by
  intro al y mag hal hlo hhi hmlo hmhi
  obtain ⟨hlo', hhi'⟩ := amdFilter_range hal ⟨hlo, hhi⟩ ⟨hmlo, hmhi⟩
  exact ⟨⟨hlo', hhi'⟩, tz_sixteen_range hlo' hhi', amdFilter_below hal, fun hy hpos => amdFilter_above hal hpos hy, amdFilter_fixed⟩

/-! ### One sample -/

/-- The magnitude in plain integers (R151, R152). -/
theorem amdMag_eq (u : Amd) (sq : Int) :
    amdMag u sq = wrap 16 (u.pa.toInt * sq * sq / 2 ^ u.qa.toNat + u.pb.toInt * sq / 2 ^ u.qb.toNat + u.pc.toInt) := by
  simp only [amdMag, amdPoly, asr, sext_toNat_eq_toInt, Nat.cast_pow, Nat.cast_ofNat]

/-- The new filter state in plain integers (R153). -/
theorem amdNextY_eq (u : Amd) (i q : Int) :
    amdNextY u i q = (u.state.toInt * (65536 - u.alpha.toNat) + amdMag u (amdSquare i q) * 65536 * u.alpha.toNat) / 65536 := by
  rw [amdNextY, amdY_eq_toInt]
  rfl

/-- Settles O49: the loop runs output 0 alone, on the registers and the memory before the command. -/
theorem amdDetOneSample : Obligations.AmdDetOneSample := by
  intro s _ hok hn i q sq mag y
  obtain ⟨hsq, hsq'⟩ := amdSquare_range s.mem s.args.a0.toNat
  have hy : amdNextY s.amd i q = y := by
    rw [amdNextY_eq, amdMag_eq]
    rfl
  have hout : amdOutput (opBegin s) (opDst s) 0 (s.amd, s.mem) =
      ({ s.amd with state := BitVec.ofInt 32 y }, writeAudio s.mem s.args.a2.toNat (Int.tdiv y 65536)) := by
    rw [← hy, ← ofNat_umod]
    rfl
  refine ⟨hsq, hsq', ?_⟩
  rw [exec_amdDet_ok hok, amdDetEffect, amdRun, show elemCount s 4 = 1 from hn, forLoop_one, hout]
  rfl

/-! ### Splitting a command at a sample -/

/-- After `k` samples the loop goes on as that of a command whose operands start at sample `k` (R147). -/
theorem amdLoop_add (first dst k j : Nat) (x : Amd × Memory) :
    forLoop (amdOutput first dst) (k + j) x =
      forLoop (amdOutput (first + 4 * k) (dst + 2 * k)) j (forLoop (amdOutput first dst) k x) :=
  (forLoop_add ..).trans (forLoop_congr _ fun i _ _ => by rw [amdOutput_shift])

/-- The state whose AMD.DET takes the first `k` samples of the input only. -/
def amdHead (s : State) (k : Nat) : State := { s with args := s.args.head k }

/-- The state whose AMD.DET takes the samples from sample `k` on, after the first `k` outputs (R147). -/
def amdTail (s : State) (k : Nat) : State := { amdDetEffect (amdHead s k) with args := s.args.tail 2 k }

section
variable {s : State} {k : Nat} (hok : amdDetOk s) (hk : s.args.a0.toNat + 4 * k ≤ s.args.a1.toNat)
include hk

/-- The head's loop is the first `k` iterations of the whole command's. -/
theorem amdRun_head : amdRun (amdHead s k) = forLoop (amdOutput (opBegin s) (opDst s)) k (s.amd, s.mem) := by
  rw [amdRun, elemCount_head (t := amdHead s k) rfl hk]
  rfl

include hok

theorem amdHead_ok : amdDetOk (amdHead s k) := by
  obtain ⟨hrdy, hrange, hdst⟩ := hok
  exact ⟨hrdy, rangeOk_head rfl hk hrange, dstOk_head rfl hk hrange.1 hdst⟩

theorem amdTail_ok : amdDetOk (amdTail s k) := by
  obtain ⟨hrdy, hrange, hdst⟩ := hok
  exact ⟨hrdy, rangeOk_tail rfl hk hrange, dstOk_tail rfl hk (by decide) hdst⟩

/-- The tail's loop, which starts where the head's ends, ends where the whole command's does (R147). -/
theorem amdRun_tail : amdRun (amdTail s k) = amdRun s := by
  obtain ⟨-, ⟨hle, -, -⟩, hdst⟩ := hok
  have hargs : (amdTail s k).args = s.args.tail 2 k := rfl
  have hstart : ((amdTail s k).amd, (amdTail s k).mem) = forLoop (amdOutput (opBegin s) (opDst s)) k (s.amd, s.mem) :=
    amdRun_head hk
  obtain ⟨l, hl⟩ := Nat.exists_eq_add_of_le ((le_elemCount_iff hle).2 hk)
  rw [amdRun, amdRun, elemCount_tail hargs hk, hl, Nat.add_sub_cancel_left, amdLoop_add, ← hstart]
  refine forLoop_congr _ fun j hj x => ?_
  rw [opBegin_tail hargs hk, opDst_tail hargs hdst (by decide) (by omega)]

end

/-- Settles O50: the first command is the head, the second the tail, and the tail ends with what the whole command leaves. -/
theorem amdDetSplitsAtSampleBoundaries : Obligations.AmdDetSplitsAtSampleBoundaries := by
  intro s k _ hok hk mid
  refine ⟨amdDetEffect (amdHead s k), amdDetEffect (amdTail s k), exec_amdDet_ok (amdHead_ok hok hk),
    exec_amdDet_ok (amdTail_ok hok hk), ?_⟩
  rw [exec_amdDet_ok hok, amdDetEffect, amdDetEffect, amdRun_tail hok hk]
  rfl

/-! ### Every output of a command whose destination is apart from its input -/

/-- The new state of a legal unit stays in 32 bits (R155). -/
theorem amdNextY_range {u : Amd} (hu : u.Legal) (i q : Int) : -2147483648 ≤ amdNextY u i q ∧ amdNextY u i q < 2147483648 := by
  obtain ⟨-, -, hal⟩ := hu
  exact amdFilter_range hal (amdY_range u) (amdMag_range u _)

/-- So the register holds it uncut (R34, R155). -/
theorem toInt_ofNat_umod {y : Int} (h : -2147483648 ≤ y ∧ y < 2147483648) : (BitVec.ofNat 32 (umod 32 y)).toInt = y := by
  rw [ofNat_umod]
  obtain ⟨hlo, hhi⟩ := h
  exact BitVec.toInt_ofInt_eq_self (by decide) hlo hhi

/-- The magnitude of sample `k` of the range, on the memory before the command (R148). -/
abbrev amdMagAt (s : State) (k : Nat) : Int := amdMag s.amd (amdSquare (iAt s.mem (opBegin s + 4 * k)) (qAt s.mem (opBegin s + 4 * k)))

/-- The unit and the memory after `k` samples of AMD.DET. -/
abbrev amdLoop (s : State) (k : Nat) : Amd × Memory := forLoop (amdOutput (opBegin s) (opDst s)) k (s.amd, s.mem)

section
variable {s : State} {k : Nat}

/-- A legal unit stays legal while it processes (R33). -/
theorem amdLoop_legal (hu : s.amd.Legal) (k : Nat) : (amdLoop s k).1.Legal := by
  rw [amdLoop_config]
  exact hu

/-- The state in the register after sample `k` is the state computed for it (R148). -/
theorem amdLoop_succ_state (hu : s.amd.Legal) (k : Nat) :
    (amdLoop s (k + 1)).1.state.toInt =
      amdNextY (amdLoop s k).1 (iAt (amdLoop s k).2 (opBegin s + 4 * k)) (qAt (amdLoop s k).2 (opBegin s + 4 * k)) :=
  toInt_ofNat_umod (amdNextY_range (amdLoop_legal hu k) _ _)

/-- Output `k` is the integer part of that state, toward zero (R154). -/
theorem amdLoop_succ_mem (hu : s.amd.Legal) (k : Nat) :
    (amdLoop s (k + 1)).2 = writeAudio (amdLoop s k).2 (opDst s + 2 * k) (tz (amdLoop s (k + 1)).1.state.toInt 16) := by
  rw [amdLoop_succ_state hu]
  rfl

variable (hm : s.mem.wf = true) (hdst : dstOk s (elemCount s 4) 2)
include hm hdst

/-- Once written, an output stays: the later ones go to other addresses. -/
theorem amdLoop_keeps_output {a : Nat} (hk : k < elemCount s 4) (ha : InSpan a (opDst s + 2 * k) 2) :
    (amdLoop s (elemCount s 4)).2.readByte a = (amdLoop s (k + 1)).2.readByte a := by
  have hroom := dstOk_room hdst (Nat.zero_lt_of_lt hk)
  have hwf : (amdLoop s (k + 1)).2.wf = true := amdLoop_wf _ _ _ _ hm
  obtain ⟨l, hl⟩ := Nat.exists_eq_add_of_le hk
  rw [amdLoop, hl, amdLoop_add]
  refine amdLoop_outside (u := (amdLoop s (k + 1)).1) hwf (fun _ => ?_) le_rfl ?_ <;> omega

/-- Output `k` reads back as the integer part of the state after its sample (R154, R155). -/
theorem audioAt_amdLoop (hu : s.amd.Legal) (hk : k < elemCount s 4) :
    audioAt (amdLoop s (elemCount s 4)).2 (opDst s + 2 * k) = tz (amdLoop s (k + 1)).1.state.toInt 16 := by
  obtain ⟨hlo, hhi⟩ := tz_sixteen_range (BitVec.le_toInt (amdLoop s (k + 1)).1.state) BitVec.toInt_lt
  rw [audioAt_congr fun _ h1 h2 => amdLoop_keeps_output hm hdst hk ⟨h1, h2⟩, amdLoop_succ_mem hu,
    audioAt_writeAudio (amdLoop_wf _ _ _ _ hm) (dstOk_fits hdst hk)]
  exact wrap_of_range (by decide) hlo (Int.lt_of_le_of_lt hhi (by decide))

variable (hapart : ∀ a, audioStores s a → ¬ amdReads s a)
include hapart

/-- With the destination apart from the input, sample `k` is untouched when output `k` is reached. -/
theorem amdLoop_keeps_sample (hk : k < elemCount s 4) :
    iAt (amdLoop s k).2 (opBegin s + 4 * k) = iAt s.mem (opBegin s + 4 * k)
      ∧ qAt (amdLoop s k).2 (opBegin s + 4 * k) = qAt s.mem (opBegin s + 4 * k) :=
  iqAt_congr (fun _ ha => amdLoop_outside hm (dstOk_room hdst) hk.le fun hin => hapart _ ⟨hin.1, by omega⟩ ha) hk

/-- The state computed for sample `k` is one filter step toward its magnitude, from the state after `k` samples (R153). -/
theorem amdNextY_amdLoop (hk : k < elemCount s 4) :
    amdNextY (amdLoop s k).1 (iAt (amdLoop s k).2 (opBegin s + 4 * k)) (qAt (amdLoop s k).2 (opBegin s + 4 * k))
      = amdFilter s.amd.alpha.toNat (amdLoop s k).1.state.toInt (amdMagAt s k) := by
  obtain ⟨hi, hq⟩ := amdLoop_keeps_sample hm hdst hapart hk
  rw [hi, hq, amdNextY, amdY_eq_toInt, amdLoop_config]
  rfl

/-- The filter state after `k` samples is the filter folded over their magnitudes (R148, R153). -/
theorem amdLoop_state (hu : s.amd.Legal) (hk : k ≤ elemCount s 4) :
    (amdLoop s k).1.state.toInt = amdFold s.amd.alpha.toNat s.amd.state.toInt (amdMagAt s) k := by
  induction k with
  | zero => rfl
  | succ k ih => rw [amdFold_succ, ← ih (by omega), amdLoop_succ_state hu, amdNextY_amdLoop hm hdst hapart hk]

end

/-- Settles O51: the state after `k` samples is the fold (`amdLoop_state`), and each output stays as it was written. -/
theorem amdDetFoldsTheFilterOverTheInput : Obligations.AmdDetFoldsTheFilterOverTheInput := by
  intro s hm hu hok hapart mag y
  have ⟨_, _, hdst⟩ := hok
  refine ⟨_, exec_amdDet_ok hok, amdLoop_state hm hdst hapart hu le_rfl, fun k hk => ?_⟩
  have hy : y (k + 1) = (amdLoop s (k + 1)).1.state.toInt := (amdLoop_state hm hdst hapart hu hk).symm
  rw [hy]
  exact audioAt_amdLoop hm hdst hu hk

end Sys2Proof.Machine
end

section
/-! PROOFS. The family 43_ssb: SSB.INIT (spec/43_ssb.md R166, R167), the look-back (R169), and SSB.DET sample by sample: completion and frame
(R168, R174), one sample (R170), splitting (R171, R174), and every output of a command apart from what it reads (R168 to R170, R174). -/

namespace Sys2Proof.Machine

/-! ### SSB.INIT -/

/-- Settles O35: the unit latched is legal, which fixes its computed registers; two successive divisions are one by the product (R167). -/
theorem ssbInitLatchesAndComputesTheDelay : Obligations.SsbInitLatchesAndComputesTheDelay := by
  intro s h
  obtain ⟨-, -, -, -, hperiod, hshift, hlen, hle⟩ := ssbInitEffect_legal h
  rw [hperiod] at hshift
  refine ⟨(ssbInitEffect s).ssb, exec_ssbInit_ok h, rfl, rfl, rfl, rfl, hperiod, hshift, hlen, ?_, hle⟩
  rw [hshift, Nat.div_div_eq_div_mul, Nat.mul_comm]
  rfl

/-! ### The look-back -/

/-- Looking back is subtraction modulo the ring's length (R169). -/
theorem ssbLookBack_eq_mod {idx sh n : Nat} (hi : idx < n) (hs : sh ≤ n) : ssbLookBack idx sh n = (idx + n - sh) % n := by
  rw [ssbLookBack_eq hs]
  split
  · next hle => rw [Nat.sub_add_comm hle, Nat.add_mod_right, Nat.mod_eq_of_lt (by omega)]
  · next hlt => rw [Nat.mod_eq_of_lt (by omega)]

/-- Settles O54: the two cases of `ssbLookBack_eq`, and the two together as `ssbLookBack_eq_mod`. -/
theorem ssbLookBackWrapsOnce : Obligations.SsbLookBackWrapsOnce := by
  intro idx sh n hi hs
  refine ⟨ssbLookBack_lt hi hs, fun hle => ?_, fun hlt => ?_, ?_, ssbLookBack_eq_mod hi hs⟩
  · rw [ssbLookBack_eq hs, if_pos hle, Nat.sub_add_cancel hle]
  · rw [ssbLookBack_eq hs, if_neg (by omega), Nat.sub_add_cancel (by omega)]
  · rw [ssbLookBack_eq_mod hi le_rfl, Nat.add_sub_cancel, Nat.mod_eq_of_lt hi]

section
variable {u : Ssb} {p : Nat} (hlo : u.ringBegin.toNat ≤ p)
include hlo

/-- The slot of the sample `k` samples on (R168). -/
theorem ssbSlot_add (k : Nat) : ssbSlot u (p + 4 * k) = ssbSlot u p + k := by
  rw [ssbSlot, Nat.sub_add_comm hlo, Nat.add_mul_div_left _ _ (by decide), ssbSlot]

/-- A sample of the ring stands at its slot. -/
theorem ringBegin_add_ssbSlot (hb : u.ringBegin.toNat % 4 = 0) (hp : p % 4 = 0) : u.ringBegin.toNat + 4 * ssbSlot u p = p := by
  rw [ssbSlot]
  omega

/-- The address looked back to, in bytes: `4 * shift` before the sample, plus the ring's size when that lies before its start (R169). -/
theorem ssbLookBack_addr (hu : u.Legal) (hp : p % 4 = 0) :
    u.ringBegin.toNat + 4 * ssbLookBack (ssbSlot u p) u.shift.toNat u.len.toNat =
      if u.ringBegin.toNat + 4 * u.shift.toNat ≤ p then p - 4 * u.shift.toNat else p + 4 * u.len.toNat - 4 * u.shift.toNat := by
  obtain ⟨hb, -, -, -, -, -, -, hle⟩ := hu
  have hslot := ringBegin_add_ssbSlot hlo hb hp
  rw [ssbLookBack_eq hle]
  by_cases hback : u.shift.toNat ≤ ssbSlot u p
  · rw [if_pos hback, if_pos (by omega)]
    omega
  · rw [if_neg hback, if_neg (by omega)]
    omega

end

/-! ### The frame -/

/-- Settles O53: the effect sets memory alone, to what the loop leaves, which keeps every byte outside the outputs. -/
theorem ssbDetCompletesAndKeepsTheFrame : Obligations.SsbDetCompletesAndKeepsTheFrame := by
  intro s hm _ hok n
  have ⟨_, _, _, _, hdst⟩ := hok
  exact ⟨ssbRun s, exec_ssbDet_ok hok, ssbLoop_wf _ _ _ _ hm, fun a ha => ssbLoop_outside hm (dstOk_room hdst) le_rfl ha⟩

/-! ### One sample -/

/-- Settles O55: the loop runs output 0 alone, on the memory before the command, with the look-back's address in bytes. -/
theorem ssbDetOneSample : Obligations.SsbDetOneSample := by
  intro s hu hok hn p back
  have ⟨_, ⟨_, hp, _⟩, hlo, _⟩ := hok
  have hvalue : ssbValue s.ssb s.mem p = wrap 16 (iAt s.mem p - qAt s.mem back) := by
    rw [ssbValue, ssbLookBack_addr hlo hu hp]
  rw [exec_ssbDet_ok hok, ssbDetEffect, ssbRun, show elemCount s 4 = 1 from hn, forLoop_one, ← hvalue]
  rfl

/-! ### Splitting a command at a sample -/

/-- After `k` samples the loop goes on as that of a command whose operands start at sample `k` (R171). -/
theorem ssbLoop_add (u : Ssb) (first dst k j : Nat) (m : Memory) :
    forLoop (ssbOutput u first dst) (k + j) m =
      forLoop (ssbOutput u (first + 4 * k) (dst + 2 * k)) j (forLoop (ssbOutput u first dst) k m) :=
  (forLoop_add ..).trans (forLoop_congr _ fun i _ _ => by rw [ssbOutput_shift])

/-- The state whose SSB.DET takes the first `k` samples of the range only. -/
def ssbHead (s : State) (k : Nat) : State := { s with args := s.args.head k }

/-- The state whose SSB.DET takes the samples from sample `k` on, after the first `k` outputs (R174). -/
def ssbTail (s : State) (k : Nat) : State := { ssbDetEffect (ssbHead s k) with args := s.args.tail 2 k }

section
variable {s : State} {k : Nat} (hok : ssbDetOk s) (hk : s.args.a0.toNat + 4 * k ≤ s.args.a1.toNat)
include hk

/-- The head's loop is the first `k` iterations of the whole command's. -/
theorem ssbRun_head : ssbRun (ssbHead s k) = forLoop (ssbOutput s.ssb (opBegin s) (opDst s)) k s.mem := by
  rw [ssbRun, elemCount_head (t := ssbHead s k) rfl hk]
  rfl

include hok

theorem ssbHead_ok : ssbDetOk (ssbHead s k) := by
  obtain ⟨hrdy, hrange, hlo, hhi, hdst⟩ := hok
  have hend : (ssbHead s k).args.a1.toNat = s.args.a0.toNat + 4 * k := opEnd_head rfl hk
  exact ⟨hrdy, rangeOk_head rfl hk hrange, hlo, hend.trans_le (hk.trans hhi), dstOk_head rfl hk hrange.1 hdst⟩

theorem ssbTail_ok : ssbDetOk (ssbTail s k) := by
  obtain ⟨hrdy, hrange, hlo, hhi, hdst⟩ := hok
  have hbegin : (ssbTail s k).args.a0.toNat = s.args.a0.toNat + 4 * k := opBegin_tail rfl hk
  exact ⟨hrdy, rangeOk_tail rfl hk hrange, (hlo.trans (Nat.le_add_right _ _)).trans hbegin.ge, hhi,
    dstOk_tail rfl hk (by decide) hdst⟩

/-- The tail's loop, which starts where the head's ends, ends where the whole command's does (R171). -/
theorem ssbRun_tail : ssbRun (ssbTail s k) = ssbRun s := by
  obtain ⟨-, ⟨hle, -, -⟩, -, -, hdst⟩ := hok
  have hargs : (ssbTail s k).args = s.args.tail 2 k := rfl
  have hunit : (ssbTail s k).ssb = s.ssb := rfl
  have hstart : (ssbTail s k).mem = forLoop (ssbOutput s.ssb (opBegin s) (opDst s)) k s.mem := ssbRun_head hk
  obtain ⟨l, hl⟩ := Nat.exists_eq_add_of_le ((le_elemCount_iff hle).2 hk)
  rw [ssbRun, ssbRun, elemCount_tail hargs hk, hl, Nat.add_sub_cancel_left, ssbLoop_add, ← hstart, hunit]
  refine forLoop_congr _ fun j hj x => ?_
  rw [opBegin_tail hargs hk, opDst_tail hargs hdst (by decide) (by omega)]

end

/-- Settles O56: the first command is the head, the second the tail, and the tail ends with what the whole command leaves. -/
theorem ssbDetSplitsAtSampleBoundaries : Obligations.SsbDetSplitsAtSampleBoundaries := by
  intro s k _ hok hk mid
  refine ⟨ssbDetEffect (ssbHead s k), ssbDetEffect (ssbTail s k), exec_ssbDet_ok (ssbHead_ok hok hk),
    exec_ssbDet_ok (ssbTail_ok hok hk), ?_⟩
  rw [exec_ssbDet_ok hok, ssbDetEffect, ssbDetEffect, ssbRun_tail hok hk]
  rfl

/-! ### Every output of a command whose destination is apart from what it reads -/

/-- The memory after `k` samples of SSB.DET. -/
abbrev ssbLoop (s : State) (k : Nat) : Memory := forLoop (ssbOutput s.ssb (opBegin s) (opDst s)) k s.mem

section
variable {s : State} {k : Nat}

/-- The value of sample `k`, by slots: I of its slot minus Q of the slot `shift` behind it, modulo the ring (R168, R169). -/
theorem ssbValue_eq_slots (hu : s.ssb.Legal) (hok : ssbDetOk s) (hk : k < elemCount s 4) (m : Memory) :
    ssbValue s.ssb m (opBegin s + 4 * k) =
      wrap 16 (iAt m (s.ssb.ringBegin.toNat + 4 * (ssbSlot s.ssb (opBegin s) + k))
        - qAt m (s.ssb.ringBegin.toNat
          + 4 * ((ssbSlot s.ssb (opBegin s) + k + s.ssb.len.toNat - s.ssb.shift.toNat) % s.ssb.len.toNat))) := by
  obtain ⟨hb, he, -, -, -, -, hlen, hshift⟩ := hu
  obtain ⟨-, ⟨-, ha0, ha1⟩, hlo, hhi, -⟩ := hok
  have hslot : ssbSlot s.ssb (opBegin s + 4 * k) = ssbSlot s.ssb (opBegin s) + k := ssbSlot_add hlo k
  have hpos : s.ssb.ringBegin.toNat + 4 * ssbSlot s.ssb (opBegin s) = opBegin s := ringBegin_add_ssbSlot hlo hb ha0
  have hin : ssbSlot s.ssb (opBegin s) + k < s.ssb.len.toNat := by
    simp only [elemCount, opBegin, opEnd] at hk hpos ⊢
    omega
  rw [ssbValue, hslot, ssbLookBack_eq_mod hin hshift, Nat.mul_add, ← Nat.add_assoc, hpos]

variable (hm : s.mem.wf = true) (hok : ssbDetOk s)
include hm hok

/-- Once written, an output stays: the later ones go to other addresses. -/
theorem ssbLoop_keeps_output {a : Nat} (hk : k < elemCount s 4) (ha : InSpan a (opDst s + 2 * k) 2) :
    (ssbRun s).readByte a = (ssbLoop s (k + 1)).readByte a := by
  have ⟨_, _, _, _, hdst⟩ := hok
  have hroom : opDst s + 2 * elemCount s 4 ≤ 4294967296 := dstOk_room hdst (Nat.zero_lt_of_lt hk)
  have hwf : (ssbLoop s (k + 1)).wf = true := ssbLoop_wf _ _ _ _ hm
  obtain ⟨l, hl⟩ := Nat.exists_eq_add_of_le hk
  rw [ssbRun, hl, ssbLoop_add]
  refine ssbLoop_outside hwf (fun _ => ?_) le_rfl ?_ <;> omega

variable (hapart : ∀ a, audioStores s a → ¬ ssbReads s a)
include hapart

/-- With the destination apart from what is read, the bytes read are untouched through the whole command. -/
theorem ssbLoop_keeps_reads (hk : k ≤ elemCount s 4) {a : Nat} (ha : ssbReads s a) : (ssbLoop s k).readByte a = s.mem.readByte a := by
  have ⟨_, _, _, _, hdst⟩ := hok
  exact ssbLoop_outside hm (dstOk_room hdst) hk fun hin => hapart a ⟨hin.1, by omega⟩ ha

variable (hu : s.ssb.Legal)
include hu

/-- Output `k` reads back as the value of sample `k` on the memory before the command (R168, R170). -/
theorem audioAt_ssbRun (hk : k < elemCount s 4) :
    audioAt (ssbRun s) (opDst s + 2 * k) = ssbValue s.ssb s.mem (opBegin s + 4 * k) := by
  have ⟨_, _, _, _, hdst⟩ := hok
  have hkeep {a : Nat} (ha : ssbReads s a) := ssbLoop_keeps_reads hm hok hapart hk.le ha
  have hvalue : ssbValue s.ssb (ssbLoop s k) (opBegin s + 4 * k) = ssbValue s.ssb s.mem (opBegin s + 4 * k) :=
    ssbValue_congr (fun _ ha => hkeep (.inl ⟨k, hk, ha⟩)) fun _ ha => hkeep (.inr ⟨_, ssbLookBack_inRing hu hok hk, ha⟩)
  rw [audioAt_congr fun _ h1 h2 => ssbLoop_keeps_output hm hok hk ⟨h1, h2⟩, ssbLoop, forLoop_succ, ssbOutput, hvalue,
    audioAt_writeAudio (ssbLoop_wf _ _ _ _ hm) (dstOk_fits hdst hk), ssbValue, wrap_wrap]

/-- The command repeated writes the same outputs over themselves, so it ends in the same memory (R174). -/
theorem ssbRun_repeat : ssbRun (ssbDetEffect s) = ssbRun s := by
  have ⟨_, _, _, _, hdst⟩ := hok
  have hwf : (ssbRun s).wf = true := ssbLoop_wf _ _ _ _ hm
  have hstart : Agree (ssbReads s) (fun j => opDst s + 2 * j) 2 0 (ssbRun s) s.mem :=
    .start hwf hm fun _ ha => ssbLoop_keeps_reads hm hok hapart le_rfl ha
  refine Memory.ext_readByte (ssbLoop_wf _ _ _ _ hwf) hwf fun a => ?_
  by_cases ha : audioStores s a
  · exact (ssbLoop_agree hu hok hstart).onSpan ha
  · exact ssbLoop_outside hwf (dstOk_room hdst) le_rfl ha

end

/-- Settles O57: the outputs are the values on the memory before (`audioAt_ssbRun`), and the repeat ends in the same memory. -/
theorem ssbDetOutputsAreRepeatable : Obligations.SsbDetOutputsAreRepeatable := by
  intro s hm hu hok hapart
  refine ⟨ssbDetEffect s, exec_ssbDet_ok hok, ?_, fun k hk => ?_⟩
  · rw [exec_ssbDet_ok (s := ssbDetEffect s) hok, ssbDetEffect, ssbRun_repeat hm hok hapart hu]
    rfl
  · exact (audioAt_ssbRun hm hok hapart hu hk).trans (ssbValue_eq_slots hu hok hk s.mem)

end Sys2Proof.Machine
end

section
/-! PROOFS. The family 44_host: which host actions complete (spec/44_host.md R180, R186), direct access to data memory (R184), command
issue (R183), and register access (R181, R182). -/

namespace Sys2Proof.Machine

/-! ### Which actions complete -/

theorem regAccessOk_eq (wd : AccessWidth) (o : Word) : regAccessOk wd o = regAccess wd o.toNat := by
  cases wd <;> rfl

theorem memAccessOk_eq (wd : AccessWidth) (ad : Word) : memAccessOk wd ad = hostSpanOk wd ad.toNat := by
  rw [Bool.eq_iff_iff, hostSpanOk_iff, memAccessOk, decide_eq_true_iff]

/-- Command issue completes whatever the word: it ends ignored, in a fault or in a command, and a command completes (R203). -/
theorem issueCommand_next (w : Word) (s : State) : ∃ t, issueCommand w s = .next t := by
  unfold issueCommand
  split
  · exact ⟨_, rfl⟩
  · split
    · exact ⟨_, rfl⟩
    · exact exec_next _ _

theorem hostRegWrite_next {wd : AccessWidth} {o : Word} (h : regAccess wd o.toNat = true) (v : Word) (s : State) :
    ∃ t, hostRegWrite wd o v s = .next t := by
  rw [hostRegWrite, if_pos h]
  split
  · exact issueCommand_next v s
  · exact ⟨_, rfl⟩
  · exact ⟨_, rfl⟩

theorem hostRegWrite_refused {wd : AccessWidth} {o : Word} (h : ¬ regAccess wd o.toNat = true) (v : Word) (s : State) :
    hostRegWrite wd o v s = .refused .registerAccessNotDefined := if_neg h

theorem hostRegRead_next {wd : AccessWidth} {o : Word} (h : regAccess wd o.toNat = true) (s : State) :
    hostRegRead wd o s = .next (reply (readOffset o.toNat s) s) := if_pos h

theorem hostRegRead_refused {wd : AccessWidth} {o : Word} (h : ¬ regAccess wd o.toNat = true) (s : State) :
    hostRegRead wd o s = .refused .registerAccessNotDefined := if_neg h

theorem hostMemWrite_next {wd : AccessWidth} {ad : Word} (h : hostSpanOk wd ad.toNat = true) (v : Word) (s : State) :
    hostMemWrite wd ad v s = .next (s.setMem (memWrite s.mem ad.toNat wd.bytes v.toNat)) := if_pos h

theorem hostMemWrite_outside {wd : AccessWidth} {ad : Word} (h : ¬ hostSpanOk wd ad.toNat = true) (v : Word) (s : State) :
    hostMemWrite wd ad v s = .fault .outsideDataMemory := if_neg h

theorem hostMemRead_next {wd : AccessWidth} {ad : Word} (h : hostSpanOk wd ad.toNat = true) (s : State) :
    hostMemRead wd ad s = .next (reply (BitVec.ofNat 32 (memRead s.mem ad.toNat wd.bytes)) s) := if_pos h

theorem hostMemRead_outside {wd : AccessWidth} {ad : Word} (h : ¬ hostSpanOk wd ad.toNat = true) (s : State) :
    hostMemRead wd ad s = .fault .outsideDataMemory := if_neg h

theorem hostAct_next_of_wellFormed {a : HostAction} (h : a.wellFormed = true) (s : State) : ∃ t, hostAct a s = .next t := by
  cases a with
  | regWrite wd o v => exact hostRegWrite_next (regAccessOk_eq wd o ▸ h) v s
  | regRead wd o => exact ⟨_, hostRegRead_next (regAccessOk_eq wd o ▸ h) s⟩
  | memWrite wd ad v => exact ⟨_, hostMemWrite_next (memAccessOk_eq wd ad ▸ h) v s⟩
  | memRead wd ad => exact ⟨_, hostMemRead_next (memAccessOk_eq wd ad ▸ h) s⟩
  | reset => exact ⟨_, rfl⟩

theorem hostAct_ne_next_of_not_wellFormed {a : HostAction} (h : ¬ a.wellFormed = true) (s t : State) : hostAct a s ≠ .next t := by
  cases a with
  | regWrite wd o v => exact (hostRegWrite_refused (regAccessOk_eq wd o ▸ h) v s).trans_ne nofun
  | regRead wd o => exact (hostRegRead_refused (regAccessOk_eq wd o ▸ h) s).trans_ne nofun
  | memWrite wd ad v => exact (hostMemWrite_outside (memAccessOk_eq wd ad ▸ h) v s).trans_ne nofun
  | memRead wd ad => exact (hostMemRead_outside (memAccessOk_eq wd ad ▸ h) s).trans_ne nofun
  | reset => exact absurd rfl h

/-- Settles O25: an idle step completes, any other step performs one action, which completes exactly if it is well formed. -/
theorem onlyIllFormedHostActionsStop : Obligations.OnlyIllFormedHostActionsStop := by
  intro s
  refine ⟨⟨fun hwf => ?_, fun ⟨t, ht⟩ a rest hs => ?_⟩, fun wd ad v rest hs hpast => ?_, fun wd ad rest hs hpast => ?_⟩
  · cases hs : s.script with
    | nil => exact ⟨s, step_idle hs⟩
    | cons a rest =>
      rw [step_cons hs]
      exact hostAct_next_of_wellFormed (hwf a rest hs) _
  · rw [step_cons hs] at ht
    exact not_not.1 fun hbad => hostAct_ne_next_of_not_wellFormed hbad _ t ht
  · exact (step_cons hs).trans (hostMemWrite_outside (mt (hostSpanOk_iff ..).1 hpast.not_ge) v _)
  · exact (step_cons hs).trans (hostMemRead_outside (mt (hostSpanOk_iff ..).1 hpast.not_ge) _)

/-- Settles O24: none of these accesses is one of `regAccess`; the last aligned offset up to 0x11F is 0x11C. -/
theorem undefinedRegisterAccessesAreRefused : Obligations.UndefinedRegisterAccessesAreRefused := by
  intro s wd o hbad
  have hno : ¬ regAccess wd o.toNat = true := by
    rw [regAccess_iff]
    rintro ⟨hw, hal, hle⟩
    rcases hbad with hbad | hbad | hbad
    · exact hbad hw
    · exact hbad hal
    · omega
  exact ⟨fun v _ hs => (step_cons hs).trans (hostRegWrite_refused hno v _), fun _ hs => (step_cons hs).trans (hostRegRead_refused hno _)⟩

/-! ### Direct access to data memory -/

section
variable {s : State} {wd : AccessWidth} {ad : Word} {rest : List HostAction}

theorem step_memWrite {v : Word} (hs : s.script = .memWrite wd ad v :: rest) (hfit : ad.toNat + wd.bytes ≤ 4294967296) :
    step s = .next ((s.setScript rest).setMem (memWrite s.mem ad.toNat wd.bytes v.toNat)) :=
  (step_cons hs).trans (hostMemWrite_next ((hostSpanOk_iff ..).2 hfit) v _)

theorem step_memRead (hs : s.script = .memRead wd ad :: rest) (hfit : ad.toNat + wd.bytes ≤ 4294967296) :
    step s = .next (reply (BitVec.ofNat 32 (memRead s.mem ad.toNat wd.bytes)) (s.setScript rest)) :=
  (step_cons hs).trans (hostMemRead_next ((hostSpanOk_iff ..).2 hfit) _)

end

/-- Settles O26: the read finds the element just written, cut to its width, and the write leaves the bytes outside it alone. -/
theorem hostMemoryWriteReadsBack : Obligations.HostMemoryWriteReadsBack := by
  intro s wd ad v rest hm hs hfit
  let m := memWrite s.mem ad.toNat wd.bytes v.toNat
  have hread := step_memRead (s := (s.setScript (.memRead wd ad :: rest)).setMem m) rfl hfit
  refine ⟨m, ?_, fun a ha => readByte_memWrite_outside hm hfit _ ha⟩
  rw [← memRead_memWrite hm hfit v.toNat]
  exact (run_succ_of_step (M := core) (step_memWrite hs hfit) 1).trans ((run_one core _).trans hread)

/-! ### Command issue -/

theorem issueCommand_faulted {s : State} (hf : s.status.fault = true) (w : Word) : issueCommand w s = .next s := if_pos hf

theorem issueCommand_illegal {s : State} (hf : s.status.fault = false) {w : Word} (hw : ∀ i, w ≠ encode i) :
    issueCommand w s = .next (raiseFault .illegalCmd w s) := by
  rw [issueCommand, if_neg (Bool.eq_false_iff.1 hf)]
  split
  · rfl
  · next i hi => exact absurd (eq_encode_of_decode hi) (hw i)

theorem encode_mem_tableWords (i : Instr) : encode i ∈ [0x10#32, 0x11#32, 0x20#32, 0x21#32, 0x30#32, 0x31#32, 0x40#32, 0x41#32] := by
  cases i <;> decide

/-- A step whose CMD write is a command's word runs that command on the rest of the script. -/
theorem step_encode {s : State} {i : Instr} {rest : List HostAction} (hs : s.script = .regWrite .word 0 (encode i) :: rest)
    (hf : s.status.fault = false) : step s = exec i (s.setScript rest) :=
  (step_cmdWrite hs).trans (issueCommand_encode (s := s.setScript rest) hf i)

/-- Settles O4: the three branches of the command issue. -/
theorem commandIssueFollowsTheThreeCases : Obligations.CommandIssueFollowsTheThreeCases := by
  intro s w rest hs
  refine ⟨fun hf => ?_, fun hf hw => ?_, fun i hf hi => ?_⟩
  · exact (step_cmdWrite hs).trans (issueCommand_faulted (s := s.setScript rest) hf w)
  · have hno : ∀ i, w ≠ encode i := fun i hi => hw (hi ▸ encode_mem_tableWords i)
    exact (step_cmdWrite hs).trans (issueCommand_illegal (s := s.setScript rest) hf hno)
  · exact step_encode (hi ▸ hs) hf

theorem withFetchWord_toNat (s : State) (w : Word) : s.withFetchWord 32 w.toNat = s.setScript (cmdWrite w :: s.script) := by
  rw [State.withFetchWord, Nat.mod_eq_of_lt w.isLt, BitVec.ofNat_toNat, BitVec.setWidth_eq]

/-- Settles O5: a word that decodes to `i` is `encode i`, and `withFetchWord` puts the write of that word in front of the script. -/
theorem stepRunsTheDecodedCommand : Obligations.StepRunsTheDecodedCommand := by
  refine ⟨fun s w rest i hs hf hi => step_encode (eq_encode_of_decode hi ▸ hs) hf, fun s i hf => ?_⟩
  rw [withFetchWord_toNat]
  exact step_encode rfl hf

/-! ### Register access -/

theorem Reg.ofOffset_eq_some_iff {o : Nat} {r : Reg} : Reg.ofOffset o = some r ↔ o = r.offset := by
  constructor
  · intro h
    have hbeq := List.find?_some h
    exact (beq_iff_eq.1 hbeq).symm
  · rintro rfl
    exact Reg.ofOffset_offset r

theorem Reg.ofOffset_eq_none_iff {o : Nat} : Reg.ofOffset o = none ↔ ∀ r : Reg, o ≠ r.offset := by
  simp only [Option.eq_none_iff_forall_ne_some, ne_eq, Reg.ofOffset_eq_some_iff]

theorem Reg.mem_all (r : Reg) : r ∈ Reg.all := List.mem_of_find?_eq_some (Reg.ofOffset_offset r)

theorem writeArg_of_not_argReg {r : Reg} (h : r ∉ argRegs) (v : Word) (g : Args) : writeArg r v g = g := by
  cases r with
  | a0 | a1 | a2 | a3 | a4 | a5 | a6 | a7 => exact absurd (by decide) h
  | _ => rfl

/-- A register write outside CMD and A0 .. A7 is ignored (R181, R187). -/
theorem hostRegWrite_ignored {o : Word} (hal : o.toNat % 4 = 0) (hle : o.toNat ≤ 0x11C) (h0 : o ≠ 0)
    (hout : o.toNat < 0x010 ∨ 0x02C < o.toNat) (v : Word) (s : State) : hostRegWrite .word o v s = .next s := by
  rw [hostRegWrite, if_pos ((regAccess_iff ..).2 ⟨rfl, hal, hle⟩)]
  split
  · next hcmd => exact absurd (BitVec.eq_of_toNat_eq (Reg.ofOffset_eq_some_iff.1 hcmd)) h0
  · next r _ hr =>
    have hargs : ∀ r ∈ argRegs, 0x010 ≤ r.offset ∧ r.offset ≤ 0x02C := by decide
    have hnot : r ∉ argRegs := fun hmem => by
      have hoff := Reg.ofOffset_eq_some_iff.1 hr
      have hrange := hargs r hmem
      omega
    rw [writeArg_of_not_argReg hnot, State.setArgs_same]
  · rfl

/-- Settles O21: the offsets of A0 .. A7 are written through `hostRegWrite_offset`; CMD issues, any other offset ignores. -/
theorem registerWritesReachArgumentsOnly : Obligations.RegisterWritesReachArgumentsOnly := by
  intro s o v rest hs hal hle
  have harg {r : Reg} (hr : r ≠ .cmd) (ho : o = BitVec.ofNat 32 r.offset) :
      step s = .next ((s.setScript rest).setArgs (writeArg r v s.args)) :=
    (step_cons hs).trans (ho ▸ hostRegWrite_offset hr v (s.setScript rest))
  exact ⟨fun ho => step_cmdWrite (ho ▸ hs), harg (r := .a0) nofun, harg (r := .a1) nofun, harg (r := .a2) nofun, harg (r := .a3) nofun,
    harg (r := .a4) nofun, harg (r := .a5) nofun, harg (r := .a6) nofun, harg (r := .a7) nofun,
    fun h0 hout => (step_cons hs).trans (hostRegWrite_ignored hal hle h0 hout v _)⟩

theorem readOffset_of_offset {o : Nat} {r : Reg} (h : o = r.offset) (s : State) : readOffset o s = readReg r s := by
  rw [readOffset, Reg.ofOffset_eq_some_iff.2 h]

theorem readOffset_of_unlisted {o : Nat} (h : ∀ r : Reg, o ≠ r.offset) (s : State) : readOffset o s = 0 := by
  rw [readOffset, Reg.ofOffset_eq_none_iff.2 h]

/-- No register shows what the host has still to do. -/
theorem readReg_setScript (r : Reg) (s : State) (l : List HostAction) : readReg r (s.setScript l) = readReg r s := by
  cases r <;> rfl

/-- Settles O22: R40's table in literals is `Reg.all` with each register's offset and value, so its rows are the registers. -/
theorem registerReadsReturnTheRegisterAndChangeNothing : Obligations.RegisterReadsReturnTheRegisterAndChangeNothing := by
  intro s o rest hs hal hle table
  have hstep : step s = .next (reply (readOffset o.toNat (s.setScript rest)) (s.setScript rest)) :=
    (step_cons hs).trans (hostRegRead_next ((regAccess_iff ..).2 ⟨rfl, hal, hle⟩) _)
  have hlisted : ∀ r : Reg, o.toNat = r.offset → step s = .next (reply (readReg r s) (s.setScript rest)) := fun r ho => by
    rw [hstep, readOffset_of_offset ho, readReg_setScript]
  have hunlisted : (∀ r : Reg, o.toNat ≠ r.offset) → step s = .next (reply 0 (s.setScript rest)) := fun hno => by
    rw [hstep, readOffset_of_unlisted hno]
  have htable : table = Reg.all.map fun r => (r.offset, readReg r s) := rfl
  rw [htable]
  exact ⟨List.forall_mem_map.2 fun r _ => hlisted r, fun hno => hunlisted fun r => List.forall_mem_map.1 hno r r.mem_all,
    hlisted, hunlisted, rfl⟩

end Sys2Proof.Machine
end

section
/-! PROOFS. The family 60_exceptions: what a fault records (spec/60_exceptions.md R201 to R204), a unit that is not ready (R207), the faulted
block until Reset (R205, R206), and the idle block (R217). -/

namespace Sys2Proof.Machine

/-! ### Taking a fault -/

/-- The only action that sets FAULT is a CMD write, and it does so by fault entry with a cause its word can raise. -/
theorem ActsAs.fault_entry {s t : State} {a : HostAction} (ha : ActsAs s a t) (hf : s.status.fault = false)
    (ht : t.status.fault = true) : ∃ w c, a = .regWrite .word 0 w ∧ c.raisedBy w = true ∧ t = raiseFault c w s := by
  cases ha with
  | fault w c hc => exact ⟨w, c, rfl, hc, rfl⟩
  | command i =>
    obtain ⟨hkeep, -⟩ := effectOf_keeps i s
    exact absurd (ht.symm.trans (hkeep.trans hf)) nofun
  | reset => cases ht
  | _ => exact absurd (ht.symm.trans hf) nofun

/-- Settles O7: the step that sets FAULT is a fault entry, for which the statement's state is written out. -/
theorem faultEntryRecordsCauseAndWordOnly : Obligations.FaultEntryRecordsCauseAndWordOnly := by
  intro s t w rest hs hf h ht
  obtain ⟨w', c, hw, hc, rfl⟩ := (step_actsAs hs h).fault_entry hf ht
  cases hw
  exact ⟨rfl, hc⟩

/-- A command that first checks its unit's ready bit faults NOT_READY when the bit is 0, whatever its other checks say. -/
theorem exec_fault_notReady {i : Instr} {s : State} {rdy : Bool} {rest : List (Bool × Cause)}
    (hi : checksOf i s = (!rdy, .notReady) :: rest) (hrdy : rdy = false) : exec i s = .next (raiseFault .notReady (encode i) s) :=
  exec_fault_of_firstFailing (by simp [hi, hrdy])

/-- Settles O13: the ready bit is the first check of each of the four processing commands. -/
theorem processingWithoutInitFaultsNotReady : Obligations.ProcessingWithoutInitFaultsNotReady := fun _ =>
  ⟨exec_fault_notReady (i := .ddcProc) rfl, exec_fault_notReady (i := .aftMix) rfl, exec_fault_notReady (i := .amdDet) rfl,
    exec_fault_notReady (i := .ssbDet) rfl⟩

/-! ### The faulted block -/

/-- A faulted block ignores a CMD write (R205). -/
theorem step_cmdWrite_faulted {s : State} {w : Word} {rest : List HostAction} (hf : s.status.fault = true)
    (hs : s.script = .regWrite .word 0 w :: rest) : step s = .next (s.setScript rest) :=
  (step_cmdWrite hs).trans (issueCommand_faulted (s := s.setScript rest) hf w)

/-- A step that is no Reset keeps the fault registers of a faulted block: only a CMD write could change them, and it is ignored. -/
theorem step_keeps_fault_regs {s t : State} (hf : s.status.fault = true) (h : step s = .next t)
    (hno : ∀ rest, s.script ≠ .reset :: rest) : t.status = s.status ∧ t.fcause = s.fcause ∧ t.fcmd = s.fcmd := by
  cases hs : s.script with
  | nil =>
    rw [step_idle hs] at h
    cases h
    exact ⟨rfl, rfl, rfl⟩
  | cons a rest =>
    have hne : a ≠ .reset := fun ha => hno rest (ha ▸ hs)
    by_cases hcmd : ∃ w, a = .regWrite .word 0 w
    · obtain ⟨w, rfl⟩ := hcmd
      rw [step_cmdWrite_faulted hf hs] at h
      cases h
      exact ⟨rfl, rfl, rfl⟩
    · obtain ⟨-, -, -, -, -, -, -, -, howner, -⟩ := registersChangeOnlyByTheirOwnCommands s t a rest hs hne h
      simpa only [not_or, not_not] using mt howner hcmd

/-- Settles O9: a step that is no Reset keeps the fault registers, and Reset leaves every register 0. -/
theorem onlyResetClearsAFault : Obligations.OnlyResetClearsAFault := by
  intro s t hf h hchange
  by_cases hreset : ∃ rest, s.script = .reset :: rest
  · obtain ⟨rest, hs⟩ := hreset
    rw [step_reset hs] at h
    cases h
    exact ⟨⟨rest, hs⟩, rfl, rfl, rfl, rfl, rfl, rfl, rfl⟩
  · obtain ⟨hstatus, hfcause, hfcmd⟩ := step_keeps_fault_regs hf h (not_exists.1 hreset)
    rw [hstatus, hf] at hchange
    simp [hfcause, hfcmd] at hchange

/-- What a register reads after a write to an argument register: the value written there, every other register as before (R181). -/
theorem readReg_writeArg {r : Reg} (hr : r ∈ argRegs) (r' : Reg) (v : Word) (s : State) :
    readReg r' (s.setArgs (writeArg r v s.args)) = if r' = r then v else readReg r' s := by
  cases r with
  | a0 | a1 | a2 | a3 | a4 | a5 | a6 | a7 => cases r' <;> rfl
  | _ => exact absurd hr (by decide)

/-- Settles O8: commands are ignored, argument writes and register reads are those of any block, and the fault registers stay. -/
theorem faultedBlockIgnoresCommandsUntilReset : Obligations.FaultedBlockIgnoresCommandsUntilReset := by
  intro s hf
  refine ⟨fun w rest => step_cmdWrite_faulted hf, fun r hr v rest hs => ?_, fun r rest hs => ?_, fun t => step_keeps_fault_regs hf⟩
  · have hne : r ≠ .cmd := fun h => absurd (h ▸ hr) (by decide)
    refine ⟨writeArg r v s.args, (step_cons hs).trans (hostRegWrite_offset hne v _), ?_, fun r' _ hr' => ?_⟩
    · exact (readReg_writeArg hr r v s).trans (if_pos rfl)
    · exact (readReg_writeArg hr r' v s).trans (if_neg hr')
  · obtain ⟨hal, hle⟩ := r.offset_aligned
    have ho : (BitVec.ofNat 32 r.offset).toNat = r.offset := Nat.mod_eq_of_lt (by omega)
    obtain ⟨-, -, hread, -⟩ := registerReadsReturnTheRegisterAndChangeNothing s _ rest hs (by omega) (by omega)
    exact hread r ho

/-! ### The idle block -/

/-- Settles O27: with no action to take the step answers the state it was given. -/
theorem idleBlockHoldsItsState : Obligations.IdleBlockHoldsItsState := fun _ => step_idle

end Sys2Proof.Machine
end

section
/-! PROOFS. The family 70_reset_and_hazards: what Reset leaves (spec/70_reset_and_hazards.md R230, R231), and the invariant after reset. -/

namespace Sys2Proof.Machine

/-! ### What the host reads after Reset -/

theorem readReg_resetBlock (r : Reg) (s : State) : readReg r (resetBlock s) = 0 := by
  cases r with
  | status => exact (by decide : Status.reset.word = 0)
  | _ => rfl

/-- Register space reads 0 after Reset: a listed offset reads its register, any other offset reads 0 in every state (R187, R230). -/
theorem readOffset_resetBlock (o : Nat) (s : State) : readOffset o (resetBlock s) = 0 := by
  by_cases hlisted : ∃ r : Reg, o = r.offset
  · obtain ⟨r, ho⟩ := hlisted
    rw [readOffset_of_offset ho, readReg_resetBlock]
  · exact readOffset_of_unlisted (not_exists.1 hlisted) _

/-- Settles O15: the step is `resetBlock`, which takes only memory, script and replies from the state before. -/
theorem resetZeroesEveryRegisterAndKeepsMemory : Obligations.ResetZeroesEveryRegisterAndKeepsMemory := fun s rest hs =>
  ⟨resetBlock (s.setScript rest), step_reset hs, rfl, rfl, rfl, rfl, rfl, rfl, rfl, rfl, rfl, rfl, rfl,
    fun o => readOffset_resetBlock o _⟩

/-! ### The invariant after reset -/

/-- After reset no unit is ready and each is at its reset values; no fault stands and the fault registers are 0. -/
theorem Inv.reset : Inv State.reset where
  mem_wf := rfl
  ddc_legal := nofun
  ddc_idle _ := rfl
  aft_legal := nofun
  aft_idle _ := rfl
  amd_legal := nofun
  amd_idle _ := rfl
  ssb_legal := nofun
  ssb_idle _ := rfl
  fault_regs := ⟨fun _ => ⟨rfl, rfl⟩, nofun⟩

/-- Settles O16: the reset state meets the invariant, which asks of data memory only that it is canonical. -/
theorem invariantHoldsAfterReset : Obligations.InvariantHoldsAfterReset := ⟨Inv.reset, fun _ => Inv.reset.setMem⟩

end Sys2Proof.Machine
end
